-- ==== Sys2Proof/Word.lean ====
section
/-! DEFINITION. The widths of the codec's ports (10_state.md R16 to R19) and nothing else: every operation on
them that a test could show wrong stands in Decode.lean or under Machine/. -/

namespace Sys2Proof

/-- A 64-bit value: an address, attribute word, entry or result (00_scope.md R7, XLEN; 10_state.md R17 to R19). -/
abbrev Word := BitVec 64

/-- A 32-bit command word (10_state.md R16, 30_encoding.md R52). -/
abbrev Cmd := BitVec 32

end Sys2Proof
end

