-- ==== Sys2Proof/Syntax.lean ====
section
/-! DEFINITION. The codec's instructions: one constructor for each row of spec/opcode_table.json, and the three
small enumerations its command word carries (30_encoding.md R41 to R50). Reserved values of a field are named
constructors, so that no reserved encoding can be taken for a neighbour; WellFormed.lean refuses them. -/

namespace Sys2Proof

/-- LEVEL = CMD[5:4] (30_encoding.md R43). `reserved` is LEVEL 3 (R50). -/
inductive Level where
  | l0
  | l1
  | l2
  | reserved
  deriving DecidableEq, Repr

/-- PERM = CMD[9:8], the permission axis (30_encoding.md R45). `reserved` is PERM 3 (R50). -/
inductive Perm where
  | read
  | write
  | execute
  | reserved
  deriving DecidableEq, Repr

/-- PRIN = CMD[11:10], the principal axis (30_encoding.md R45). The last two are PRIN 2 and 3 (R50). -/
inductive Prin where
  | kernel
  | user
  | reserved2
  | reserved3
  deriving DecidableEq, Repr

/-- A prot: three independent fields, never combined by arithmetic (30_encoding.md R45,
41_permission_algebra.md R73, R84). `cache` is CMD[12]. -/
structure Prot where
  perm  : Perm
  prin  : Prin
  cache : Bool
  deriving DecidableEq, Repr

/-- The 16 rows of the opcode table, in its order (30_encoding.md R48). The two reserved rows keep CMD[31:4],
which may hold anything (R49). -/
inductive Instr where
  | vpn (level : Level)
  | ppn (level : Level)
  | voff
  | poff
  | attrLeaf
  | attrNext
  | isLeaf
  | isPresent
  | permRm (prot : Prot)
  | permAdd (prot : Prot)
  | permTest (prot : Prot)
  | satpMake
  | pteMake
  | ptePa
  | reservedE (rest : BitVec 28)
  | reservedF (rest : BitVec 28)
  deriving DecidableEq, Repr

end Sys2Proof
end

