-- ==== Sys2Proof/WellFormed.lean ====
section
/-! DEFINITION. Which instructions are well formed: those that use no reserved field value (30_encoding.md R50).
An ill-formed one still has a meaning, MalformedCommand, so the machine is total. -/

namespace Sys2Proof

/-- LEVEL 3 is reserved (30_encoding.md R50). -/
def Level.wellFormed : Level → Bool
  | .l0 | .l1 | .l2 => true
  | .reserved => false

/-- PERM 3 is reserved (30_encoding.md R50). -/
def Perm.wellFormed : Perm → Bool
  | .read | .write | .execute => true
  | .reserved => false

/-- PRIN 2 and 3 are reserved (30_encoding.md R50). -/
def Prin.wellFormed : Prin → Bool
  | .kernel | .user => true
  | .reserved2 | .reserved3 => false

/-- A well-formed prot; either value of CACHE is one (41_permission_algebra.md R73). -/
def Prot.wellFormed (p : Prot) : Bool :=
  p.perm.wellFormed && p.prin.wellFormed

/-- A reserved field value is illegal wherever the field is used (30_encoding.md R50). -/
def Instr.wellFormed : Instr → Bool
  | .vpn l => l.wellFormed
  | .ppn l => l.wellFormed
  | .permRm p => p.wellFormed
  | .permAdd p => p.wellFormed
  | .permTest p => p.wellFormed
  | .voff | .poff | .attrLeaf | .attrNext | .isLeaf | .isPresent | .satpMake | .pteMake | .ptePa => true
  | .reservedE _ | .reservedF _ => true

end Sys2Proof
end

