-- ==== Sys2Proof/Decode.lean ====
section
/-! DEFINITION. From a command word to an instruction, total on all 2^32 words and rejecting by name
(30_encoding.md R54), and back. A command is one 32-bit value with no byte order (R52, 20_memory.md R33). -/

namespace Sys2Proof

/-- Why the decoder rejects a word. Every one of them is MalformedCommand (30_encoding.md R54,
60_exceptions.md R93). -/
inductive DecodeError where
  /-- A bit of CMD that the operation does not use is set (30_encoding.md R44, R46, R47). -/
  | unusedBits
  /-- LEVEL = 3 in VPN or PPN (30_encoding.md R50). -/
  | reservedLevel
  /-- PERM = 3, or PRIN of 2 or 3, in PERM.* (30_encoding.md R50). -/
  | reservedProt
  deriving DecidableEq, Repr

/-! ### The fields of CMD (30_encoding.md R41) -/

/-- OP = CMD[3:0] (30_encoding.md R42). -/
def opField (c : Cmd) : BitVec 4 := c.extractLsb' 0 4

/-- LEVEL = CMD[5:4] (30_encoding.md R43). -/
def levelField (c : Cmd) : BitVec 2 := c.extractLsb' 4 2

/-- PERM = CMD[9:8] (30_encoding.md R45). -/
def permField (c : Cmd) : BitVec 2 := c.extractLsb' 8 2

/-- PRIN = CMD[11:10] (30_encoding.md R45). -/
def prinField (c : Cmd) : BitVec 2 := c.extractLsb' 10 2

/-- CACHE = CMD[12] (30_encoding.md R45). -/
def cacheField (c : Cmd) : Bool := c.getLsbD 12

/-- CMD[31:4], which the two reserved rows leave free (30_encoding.md R49). -/
def restField (c : Cmd) : BitVec 28 := c.extractLsb' 4 28

/-- The values of LEVEL (30_encoding.md R43, R50). -/
def Level.ofField (f : BitVec 2) : Level :=
  match f.toNat with
  | 0 => .l0
  | 1 => .l1
  | 2 => .l2
  | _ => .reserved

/-- The values of PERM (30_encoding.md R45, R50). -/
def Perm.ofField (f : BitVec 2) : Perm :=
  match f.toNat with
  | 0 => .read
  | 1 => .write
  | 2 => .execute
  | _ => .reserved

/-- The values of PRIN (30_encoding.md R45, R50). -/
def Prin.ofField (f : BitVec 2) : Prin :=
  match f.toNat with
  | 0 => .kernel
  | 1 => .user
  | 2 => .reserved2
  | _ => .reserved3

/-- The prot of a command word: three fields read separately (30_encoding.md R45, 41_permission_algebra.md R84). -/
def protField (c : Cmd) : Prot where
  perm := Perm.ofField (permField c)
  prin := Prin.ofField (prinField c)
  cache := cacheField c

/-! ### Decoding (30_encoding.md R54) -/

/-- USED_MASK of an OP value: the bits of CMD other than OP that the operation uses (30_encoding.md R47). -/
def usedMask (op : BitVec 4) : Cmd :=
  match op.toNat with
  | 0 | 1 => 0x00000030#32
  | 8 | 9 | 10 => 0x00001F00#32
  | _ => 0x00000000#32

/-- Some bit that the operation does not use is set (30_encoding.md R54, second check). -/
def hasUnusedBits (c : Cmd) : Bool :=
  c &&& ~~~(0x0000000F#32 ||| usedMask (opField c)) != 0#32

/-- An operation that uses no field. -/
def decodePlain (i : Instr) (c : Cmd) : Except DecodeError Instr :=
  if hasUnusedBits c then .error .unusedBits else .ok i

/-- VPN and PPN (30_encoding.md R54, third check). -/
def decodeLevel (f : Level → Instr) (c : Cmd) : Except DecodeError Instr :=
  if hasUnusedBits c then .error .unusedBits
  else if (Level.ofField (levelField c)).wellFormed then .ok (f (Level.ofField (levelField c)))
  else .error .reservedLevel

/-- PERM.RM, PERM.ADD and PERM.TEST (30_encoding.md R54, fourth check). -/
def decodeProt (f : Prot → Instr) (c : Cmd) : Except DecodeError Instr :=
  if hasUnusedBits c then .error .unusedBits
  else if (protField c).wellFormed then .ok (f (protField c))
  else .error .reservedProt

/-- The decoder (30_encoding.md R42, R48, R54). The two reserved OP values are recognised first and whatever the
other bits hold (R49); they are rows of the table, whose one effect is MalformedCommand (log entry 5). -/
def decode (c : Cmd) : Except DecodeError Instr :=
  match (opField c).toNat with
  | 0 => decodeLevel .vpn c
  | 1 => decodeLevel .ppn c
  | 2 => decodePlain .voff c
  | 3 => decodePlain .poff c
  | 4 => decodePlain .attrLeaf c
  | 5 => decodePlain .attrNext c
  | 6 => decodePlain .isLeaf c
  | 7 => decodePlain .isPresent c
  | 8 => decodeProt .permRm c
  | 9 => decodeProt .permAdd c
  | 10 => decodeProt .permTest c
  | 11 => decodePlain .satpMake c
  | 12 => decodePlain .pteMake c
  | 13 => decodePlain .ptePa c
  | 14 => .ok (.reservedE (restField c))
  | _ => .ok (.reservedF (restField c))

/-- The decoder on a word numbered as the opcode table numbers it: bit 0 is the least significant bit of CMD, and
every bit from `nbits` up is 0. A number wider than CMD is no command. -/
def decodeTableWord (nbits w : Nat) : Option Instr :=
  if w % 2 ^ nbits < 2 ^ 32 then (decode (BitVec.ofNat 32 (w % 2 ^ nbits))).toOption else none

/-! ### Encoding, written from the same tables (30_encoding.md R41, R43, R45, R48) -/

def Level.field : Level → BitVec 2
  | .l0 => 0#2
  | .l1 => 1#2
  | .l2 => 2#2
  | .reserved => 3#2

def Perm.field : Perm → BitVec 2
  | .read => 0#2
  | .write => 1#2
  | .execute => 2#2
  | .reserved => 3#2

def Prin.field : Prin → BitVec 2
  | .kernel => 0#2
  | .user => 1#2
  | .reserved2 => 2#2
  | .reserved3 => 3#2

/-- The OP value of each row (30_encoding.md R48). -/
def Instr.op : Instr → BitVec 4
  | .vpn _ => 0x0#4
  | .ppn _ => 0x1#4
  | .voff => 0x2#4
  | .poff => 0x3#4
  | .attrLeaf => 0x4#4
  | .attrNext => 0x5#4
  | .isLeaf => 0x6#4
  | .isPresent => 0x7#4
  | .permRm _ => 0x8#4
  | .permAdd _ => 0x9#4
  | .permTest _ => 0xA#4
  | .satpMake => 0xB#4
  | .pteMake => 0xC#4
  | .ptePa => 0xD#4
  | .reservedE _ => 0xE#4
  | .reservedF _ => 0xF#4

/-- CMD[31:4] of an instruction: its fields where it has any, every other bit 0 (30_encoding.md R41, R47). -/
def Instr.upperBits : Instr → BitVec 28
  | .vpn l | .ppn l => 0#26 ++ l.field
  | .permRm p | .permAdd p | .permTest p =>
      0#19 ++ BitVec.ofBool p.cache ++ p.prin.field ++ p.perm.field ++ 0#4
  | .reservedE rest | .reservedF rest => rest
  | .voff | .poff | .attrLeaf | .attrNext | .isLeaf | .isPresent | .satpMake | .pteMake | .ptePa => 0#28

/-- The command word of an instruction: one 32-bit word (30_encoding.md R52). -/
def encode (i : Instr) : Cmd := i.upperBits ++ i.op

/-! ### The opcode table's match and mask columns (spec/opcode_table.json) -/

/-- One row of the opcode table. -/
structure OpcodeRow where
  mnemonic : String
  matchBits : Cmd
  mask : Cmd
  deriving DecidableEq, Repr

/-- The table's 16 rows, in its order. -/
def opcodeTable : List OpcodeRow :=
  [⟨"VPN", 0x00000000#32, 0xFFFFFFCF#32⟩, ⟨"PPN", 0x00000001#32, 0xFFFFFFCF#32⟩,
   ⟨"VOFF", 0x00000002#32, 0xFFFFFFFF#32⟩, ⟨"POFF", 0x00000003#32, 0xFFFFFFFF#32⟩,
   ⟨"ATTR.LEAF", 0x00000004#32, 0xFFFFFFFF#32⟩, ⟨"ATTR.NEXT", 0x00000005#32, 0xFFFFFFFF#32⟩,
   ⟨"IS.LEAF", 0x00000006#32, 0xFFFFFFFF#32⟩, ⟨"IS.PRESENT", 0x00000007#32, 0xFFFFFFFF#32⟩]
  ++
  [⟨"PERM.RM", 0x00000008#32, 0xFFFFE0FF#32⟩, ⟨"PERM.ADD", 0x00000009#32, 0xFFFFE0FF#32⟩,
   ⟨"PERM.TEST", 0x0000000A#32, 0xFFFFE0FF#32⟩, ⟨"SATP.MAKE", 0x0000000B#32, 0xFFFFFFFF#32⟩,
   ⟨"PTE.MAKE", 0x0000000C#32, 0xFFFFFFFF#32⟩, ⟨"PTE.PA", 0x0000000D#32, 0xFFFFFFFF#32⟩,
   ⟨"RESERVED", 0x0000000E#32, 0x0000000F#32⟩, ⟨"RESERVED", 0x0000000F#32, 0x0000000F#32⟩]

/-- A command word lies in a row of the table. -/
def OpcodeRow.covers (row : OpcodeRow) (c : Cmd) : Bool := c &&& row.mask == row.matchBits

/-- The mnemonic of an instruction, as the table and 30_encoding.md R48 spell it. -/
def Instr.mnemonic : Instr → String
  | .vpn _ => "VPN"
  | .ppn _ => "PPN"
  | .voff => "VOFF"
  | .poff => "POFF"
  | .attrLeaf => "ATTR.LEAF"
  | .attrNext => "ATTR.NEXT"
  | .isLeaf => "IS.LEAF"
  | .isPresent => "IS.PRESENT"
  | .permRm _ => "PERM.RM"
  | .permAdd _ => "PERM.ADD"
  | .permTest _ => "PERM.TEST"
  | .satpMake => "SATP.MAKE"
  | .pteMake => "PTE.MAKE"
  | .ptePa => "PTE.PA"
  | .reservedE _ => "RESERVED"
  | .reservedF _ => "RESERVED"

end Sys2Proof
end

