-- ==== Sys2Proof/Machine/Constants.lean ====
section
/-! DEFINITION. The constants wired into the codec (10_state.md R25): widths and shifts (00_scope.md R7), flag
positions and masks (R8), presets (R9). No request reads or changes them. -/

namespace Sys2Proof.Machine

/-! ### 00_scope.md R7 -/

def XLEN : Nat := 64
def ARCH_VADDR_WIDTH : Nat := 39
def PHYSICAL_ADDRESS_WIDTH_BITS : Nat := 56
def LEVELS : Nat := 3
def PAGE_OFFSET_BIT : Nat := 12
def PAGE_OFFSET_SHIFT : Nat := 0
def VPN0_BIT : Nat := 9
def VPN1_BIT : Nat := 9
def VPN2_BIT : Nat := 9
def PPN0_BIT : Nat := 9
def PPN1_BIT : Nat := 9
def PPN2_BIT : Nat := 26
def VPN0_SHIFT : Nat := 12
def VPN1_SHIFT : Nat := 21
def VPN2_SHIFT : Nat := 30
def PPN0_SHIFT : Nat := 12
def PPN1_SHIFT : Nat := 21
def PPN2_SHIFT : Nat := 30
def SATP_MODE_OFFSET : Nat := 60
def SATP_MODE_BIT : Nat := 4
def SV39 : Word := 8#64

/-- VPNn_SHIFT and VPNn_BIT by level; none for the reserved LEVEL (00_scope.md R7, 30_encoding.md R43, R50). -/
def vpnField : Level → Option (Nat × Nat)
  | .l0 => some (VPN0_SHIFT, VPN0_BIT)
  | .l1 => some (VPN1_SHIFT, VPN1_BIT)
  | .l2 => some (VPN2_SHIFT, VPN2_BIT)
  | .reserved => none

/-- PPNn_SHIFT and PPNn_BIT in a physical address, by level (00_scope.md R7, 40_layout_codec.md R59). -/
def ppnField : Level → Option (Nat × Nat)
  | .l0 => some (PPN0_SHIFT, PPN0_BIT)
  | .l1 => some (PPN1_SHIFT, PPN1_BIT)
  | .l2 => some (PPN2_SHIFT, PPN2_BIT)
  | .reserved => none

/-! ### 00_scope.md R8 -/

def PTE_V : Word := 0x001#64
def PTE_R : Word := 0x002#64
def PTE_W : Word := 0x004#64
def PTE_X : Word := 0x008#64
def PTE_U : Word := 0x010#64
def PTE_G : Word := 0x020#64
def PTE_A : Word := 0x040#64
def PTE_D : Word := 0x080#64

/-- RSW, bits 9:8 (00_scope.md R8). -/
def PTE_RSW : Word := 0x300#64

/-- The page-frame number, bits 53:10 (00_scope.md R8). -/
def PTE_PPN : Word := 0x003FFFFFFFFFFC00#64

/-- Bits 63:54, reserved (00_scope.md R8). -/
def PTE_RESERVED : Word := 0xFFC0000000000000#64

/-- PTE_X | PTE_W | PTE_R (00_scope.md R8). -/
def PTE_XWR_MASK : Word := PTE_X ||| PTE_W ||| PTE_R

/-- Bits 9:0 (00_scope.md R8). -/
def FLAG_MASK : Word := 0x3FF#64

/-- The number of flag bits, which is the bit where an entry's PPN begins (00_scope.md R8). -/
def PTE_PPN_SHIFT : Nat := 10

/-- The number of bits of an entry's PPN (00_scope.md R8: 53:10). -/
def PTE_PPN_BIT : Nat := 44

/-- The PPN fields inside an entry by level, as (lowest bit, width) (40_layout_codec.md R59; 90_conflicts.md C4:
entry offset = PPNn_SHIFT - PAGE_OFFSET_BIT + 10). -/
def entryPpnField : Level → Option (Nat × Nat)
  | .l0 => some (PPN0_SHIFT - PAGE_OFFSET_BIT + PTE_PPN_SHIFT, PPN0_BIT)
  | .l1 => some (PPN1_SHIFT - PAGE_OFFSET_BIT + PTE_PPN_SHIFT, PPN1_BIT)
  | .l2 => some (PPN2_SHIFT - PAGE_OFFSET_BIT + PTE_PPN_SHIFT, PPN2_BIT)
  | .reserved => none

/-! ### 00_scope.md R9 -/

/-- The leaf preset: R, W, X, U, V and G (00_scope.md R9). -/
def PAGE_DEFAULT_ATTR_LEAF : Word := PTE_R ||| PTE_W ||| PTE_X ||| PTE_U ||| PTE_V ||| PTE_G

/-- The next-level preset: V and G (00_scope.md R9). -/
def PAGE_DEFAULT_ATTR_NEXT : Word := PTE_V ||| PTE_G

/-- What ATTR.NEXT refuses in a base permission set: X, W, R, U, A and D (40_layout_codec.md R65). -/
def NEXT_LEVEL_REFUSED : Word := PTE_X ||| PTE_W ||| PTE_R ||| PTE_U ||| PTE_A ||| PTE_D

end Sys2Proof.Machine
end

