-- ==== Sys2Proof/Machine/State.lean ====
section
/-! DEFINITION. What the spec gives the machine: the codec's five ports and nothing more (10_state.md R15 to R29).
The codec holds no register, pc, flag, mode, memory or pending work (R21 to R24, R27), so none stands here. -/

namespace Sys2Proof.Machine

/-- One response (10_state.md R15): the result port R (64 bits, R19) and the status port ST (2 bits, R20). -/
structure Response where
  r : Word
  st : BitVec 2
  deriving DecidableEq, Repr

/-- The codec seen at its ports. CMD, A and B are driven by the host (10_state.md R16 to R18). R and ST exist only
as the response to a request (R29): `none` means that no request made with these ports has been answered. -/
structure State where
  /-- CMD, 32 bits, input (10_state.md R16). -/
  cmd : Cmd
  /-- A, 64 bits, input (10_state.md R17). -/
  a : Word
  /-- B, 64 bits, input (10_state.md R18). -/
  b : Word
  /-- R and ST, outputs, written together (10_state.md R19, R20, R29). -/
  response : Option Response
  deriving DecidableEq, Repr

/-- No input stops the codec: a fault of the spec is a response with ST other than 0 (10_state.md R15, R30;
60_exceptions.md R98). So this type has no constructor: nothing raises a stop, which is what the spec says, and
safe. -/
inductive Fault where
  deriving DecidableEq, Repr

/-- Why a step answers nothing. -/
inductive Refusal where
  /-- An instruction with no meaning in exec. Raised by exec's refused arms only, of which there are none. Safe. -/
  | notModelled (mnemonic : String)
  deriving DecidableEq, Repr

/-- Right after reset. Reset leaves the codec as it was and gives no port a value (10_state.md R28,
70_reset_and_hazards.md R105): no response stands, and the inputs, which the host has not driven yet, are 0
(DESIGN CHOICE, log entry 1). -/
def State.reset : State where
  cmd := 0#32
  a := 0#64
  b := 0#64
  response := none

end Sys2Proof.Machine
end

