-- ==== Sys2Proof/Machine/Flags.lean ====
section
/-! DEFINITION. ST, the codec's only condition output (10_state.md R23), the answers of predicates, which go to R
and are no flags, and the prot table (41_permission_algebra.md R73). -/

namespace Sys2Proof.Machine

/-- The four statuses (60_exceptions.md R91). -/
inductive Status where
  /-- The operation completed and R holds its result. -/
  | ok
  /-- CMD is not a legal command (60_exceptions.md R93). -/
  | malformedCommand
  /-- A or B is outside the operation's bounds (60_exceptions.md R94). -/
  | malformedOperand
  /-- The prot is well formed but not implemented (60_exceptions.md R95). -/
  | unsupportedCombination
  deriving DecidableEq, Repr

/-- The codes on ST (60_exceptions.md R91). -/
def Status.code : Status → BitVec 2
  | .ok => 0#2
  | .malformedCommand => 1#2
  | .malformedOperand => 2#2
  | .unsupportedCombination => 3#2

/-- The status a code stands for (60_exceptions.md R91: the table has a row for each of the four). -/
def Status.ofCode (c : BitVec 2) : Status :=
  match c.toNat with
  | 0 => .ok
  | 1 => .malformedCommand
  | 2 => .malformedOperand
  | _ => .unsupportedCombination

/-- The status of a response. -/
def Response.status (p : Response) : Status := Status.ofCode p.st

/-- The result of a response. R is a result only where ST is 0 (60_exceptions.md R92; 93_implementation_defined.md
U10: reading it after a fault is refused). -/
def Response.result (p : Response) : Option Word := if p.status = .ok then some p.r else none

/-- zext_64 of a boolean: true is 1, false is 0 (00_scope.md R11, 10_state.md R19). -/
def zextBool (t : Bool) : Word := if t then 1#64 else 0#64

/-- Some bit of the mask is set. -/
def anySet (v mask : Word) : Bool := v &&& mask != 0#64

/-- Every bit of the mask is set. -/
def allSet (v mask : Word) : Bool := v &&& mask == mask

/-- PERM_MASK (41_permission_algebra.md R73, R74): the mask of a well-formed prot, none for UNSUPPORTED. The three
fields are matched separately (R84). -/
def permMask (p : Prot) : Option Word :=
  match p.perm, p.prin, p.cache with
  | .write, .user, false => some PTE_W
  | _, _, _ => none

end Sys2Proof.Machine
end

