-- ==== Sys2Proof/Machine/Operands.lean ====
section
/-! DEFINITION. What the operations read from their operands A and B: bit fields (00_scope.md R10, R11) and the
bounds a value must meet (00_scope.md R13; 60_exceptions.md R94). Operands are whole 64-bit values, neither extended
nor cut (30_encoding.md R53). -/

namespace Sys2Proof.Machine

/-- The field of `len` bits whose lowest bit is `lo`, zero-extended to 64 bits (00_scope.md R10, R11). -/
def bitField (lo len : Nat) (v : Word) : Word := (v.extractLsb' lo len).setWidth 64

/-- A canonical virtual address: v[63:38] is all zeros or all ones (00_scope.md R13). -/
def canonicalVa (v : Word) : Bool :=
  v.extractLsb' 38 26 == 0#26 || v.extractLsb' 38 26 == 0x3FFFFFF#26

/-- A valid physical address: v[63:56] is 0 (00_scope.md R13). -/
def validPa (v : Word) : Bool := v.extractLsb' 56 8 == 0#8

/-- A page-aligned value: v[11:0] is 0 (20_memory.md R35). -/
def pageAligned (v : Word) : Bool := v.extractLsb' 0 12 == 0#12

/-- No bit above the flags: v[63:10] is 0 (40_layout_codec.md R64, R65, R68). -/
def flagsOnly (v : Word) : Bool := v.extractLsb' 10 54 == 0#54

/-- The page offset of an address of either kind (40_layout_codec.md R62, R63). -/
def pageOffset (v : Word) : Word := bitField PAGE_OFFSET_SHIFT PAGE_OFFSET_BIT v

/-- The page-frame number of a physical address: v[55:12], once v[63:56] is 0. -/
def frameNumber (v : Word) : Word := v >>> PAGE_OFFSET_BIT

/-- The page address an entry holds: its E[53:10] as PA[55:12] (40_layout_codec.md R69). -/
def entryAddress (e : Word) : Word := bitField PTE_PPN_SHIFT PTE_PPN_BIT e <<< PAGE_OFFSET_BIT

end Sys2Proof.Machine
end

