-- ==== Sys2Proof/Machine/Ops.lean ====
section
/-! DEFINITION. The named operations every meaning is built from: presenting a request, answering it, and raising a
fault. There is no memory and no register to operate on (10_state.md R21, 20_memory.md R31). -/

namespace Sys2Proof.Machine

/-- What a step and a meaning answer. -/
abbrev Outcome := Host.Outcome State Fault Refusal

/-- A request: what the host drives on the three input ports (10_state.md R15 to R18). -/
structure Request where
  cmd : Cmd
  a : Word
  b : Word
  deriving DecidableEq, Repr

/-- The host drives the input ports. No request with these inputs has been answered yet, so the outputs have no
value (10_state.md R29; log entry 3). -/
def State.present (q : Request) (_ : State) : State where
  cmd := q.cmd
  a := q.a
  b := q.b
  response := none

/-- The request on the input ports. -/
def State.request (s : State) : Request where
  cmd := s.cmd
  a := s.a
  b := s.b

/-- The command word a step reads. The codec fetches nothing: it is on the port (10_state.md R22, 20_memory.md
R40). -/
def fetch (s : State) : Cmd := s.cmd

/-- R <- v and ST <- st, together, and nothing else (00_scope.md R11, R12; 20_memory.md R32). -/
def State.respond (s : State) (v : Word) (st : BitVec 2) : State :=
  { s with response := some { r := v, st := st } }

/-- The operation completes: R <- v, ST <- 0 (00_scope.md R11; 10_state.md R20). -/
def complete (v : Word) (s : State) : Outcome := .next (s.respond v Status.ok.code)

/-- `raise`, the one way a fault is taken: ST gets its code and R gets 0 (00_scope.md R11; 60_exceptions.md R92).
Nothing is saved and control goes nowhere (R98), so there is no return to model either (R99). -/
def raise (f : Status) (s : State) : Outcome := .next (s.respond 0#64 f.code)

/-- The decoder's rejection, whatever its reason, is MalformedCommand (30_encoding.md R54; 60_exceptions.md
R93). -/
def reject (_ : DecodeError) (s : State) : Outcome := raise .malformedCommand s

/-- Complete with `v` if the operands are within bounds, otherwise MalformedOperand (60_exceptions.md R94). -/
def checkOperands (inBounds : Bool) (v : Word) (s : State) : Outcome :=
  if inBounds then complete v s else raise .malformedOperand s

/-- Go on with the field a LEVEL selects; the reserved LEVEL is MalformedCommand, before any operand check
(30_encoding.md R50; 60_exceptions.md R96). -/
def withField (sel : Option (Nat × Nat)) (s : State) (k : Nat → Nat → Outcome) : Outcome :=
  match sel with
  | none => raise .malformedCommand s
  | some (lo, len) => k lo len

/-- Complete with `f m` for the mask m of a prot. A reserved field value is MalformedCommand (30_encoding.md R50),
and a well-formed prot with no mask is UnsupportedCombination (41_permission_algebra.md R73, R81), in that order
(60_exceptions.md R96). -/
def withMask (p : Prot) (f : Word → Word) (s : State) : Outcome :=
  if p.wellFormed then
    match permMask p with
    | some m => complete (f m) s
    | none => raise .unsupportedCombination s
  else raise .malformedCommand s

/-- The response an outcome leaves on the outputs. -/
def responseOf : Outcome → Option Response
  | .next s => s.response
  | .fault _ => none
  | .refused _ => none

end Sys2Proof.Machine
end

