-- ==== Sys2Proof/Machine/Layout.lean ====
section
/-! DEFINITION. The meanings of the address and entry layout codec (40_layout_codec.md R60 to R69). -/

namespace Sys2Proof.Machine

/-- VPN (40_layout_codec.md R60). -/
def execVpn (level : Level) (s : State) : Outcome :=
  withField (vpnField level) s fun lo len => checkOperands (canonicalVa s.a) (bitField lo len s.a) s

/-- PPN (40_layout_codec.md R61). -/
def execPpn (level : Level) (s : State) : Outcome :=
  withField (ppnField level) s fun lo len => checkOperands (validPa s.a) (bitField lo len s.a) s

/-- VOFF (40_layout_codec.md R62). -/
def execVoff (s : State) : Outcome := checkOperands (canonicalVa s.a) (pageOffset s.a) s

/-- POFF (40_layout_codec.md R63). -/
def execPoff (s : State) : Outcome := checkOperands (validPa s.a) (pageOffset s.a) s

/-- ATTR.LEAF (40_layout_codec.md R64). -/
def execAttrLeaf (s : State) : Outcome :=
  checkOperands (flagsOnly s.a) (s.a ||| PAGE_DEFAULT_ATTR_LEAF) s

/-- ATTR.NEXT (40_layout_codec.md R65). -/
def execAttrNext (s : State) : Outcome :=
  checkOperands (flagsOnly s.a && !anySet s.a NEXT_LEVEL_REFUSED) (s.a ||| PAGE_DEFAULT_ATTR_NEXT) s

/-- IS.LEAF (40_layout_codec.md R66): V is not consulted, and no value of A faults. -/
def execIsLeaf (s : State) : Outcome := complete (zextBool (anySet s.a PTE_XWR_MASK)) s

/-- IS.PRESENT (40_layout_codec.md R67): only bit 0 is read, and no value of A faults. -/
def execIsPresent (s : State) : Outcome := complete (zextBool (anySet s.a PTE_V)) s

/-- PTE.MAKE (40_layout_codec.md R68), the only operation that reads B (10_state.md R18). The flags in B are not
checked, nor is a huge page's alignment. -/
def execPteMake (s : State) : Outcome :=
  checkOperands (validPa s.a && pageAligned s.a && flagsOnly s.b)
    ((frameNumber s.a <<< PTE_PPN_SHIFT) ||| s.b) s

/-- PTE.PA (40_layout_codec.md R69): flags and reserved bits are ignored, and no value of A faults. -/
def execPtePa (s : State) : Outcome :=
  complete (entryAddress s.a) s

end Sys2Proof.Machine
end

