-- ==== Sys2Proof/Machine/Permission.lean ====
section
/-! DEFINITION. The meanings of the permission attribute algebra (41_permission_algebra.md R75 to R77). No value of
A faults (R83). -/

namespace Sys2Proof.Machine

/-- PERM.RM (41_permission_algebra.md R75). -/
def execPermRm (prot : Prot) (s : State) : Outcome := withMask prot (fun m => s.a &&& ~~~m) s

/-- PERM.ADD (41_permission_algebra.md R76). -/
def execPermAdd (prot : Prot) (s : State) : Outcome := withMask prot (fun m => s.a ||| m) s

/-- PERM.TEST (41_permission_algebra.md R77). -/
def execPermTest (prot : Prot) (s : State) : Outcome := withMask prot (fun m => zextBool (allSet s.a m)) s

end Sys2Proof.Machine
end

