-- ==== Sys2Proof/Machine/Reserved.lean ====
section
/-! DEFINITION. The meanings of the two reserved rows: ST = MalformedCommand and R = 0, whatever CMD[31:4], A and B
hold (30_encoding.md R49). -/

namespace Sys2Proof.Machine

/-- OP 0xE (30_encoding.md R49). -/
def execReservedE (_rest : BitVec 28) (s : State) : Outcome := raise .malformedCommand s

/-- OP 0xF (30_encoding.md R49). -/
def execReservedF (_rest : BitVec 28) (s : State) : Outcome := raise .malformedCommand s

end Sys2Proof.Machine
end

