-- ==== Sys2Proof/Machine/Satp.lean ====
section
/-! DEFINITION. The meaning of SATP.MAKE (42_translation_control.md R85 to R87). -/

namespace Sys2Proof.Machine

/-- SATP.MAKE (42_translation_control.md R85): MODE is SV39, ASID is 0, and PPN is A[55:12] (R86). -/
def execSatpMake (s : State) : Outcome :=
  checkOperands (validPa s.a && pageAligned s.a)
    ((SV39 <<< SATP_MODE_OFFSET) ||| frameNumber s.a) s

end Sys2Proof.Machine
end

