-- ==== Sys2Proof/Machine/Dispatch.lean ====
section
/-! DEFINITION. One arm per instruction, each a call of its meaning. -/

namespace Sys2Proof.Machine

def exec (i : Instr) (s : State) : Host.Outcome State Fault Refusal :=
  match i with
  | .vpn level => Sys2Proof.Machine.execVpn level s
  | .ppn level => Sys2Proof.Machine.execPpn level s
  | .voff => Sys2Proof.Machine.execVoff s
  | .poff => Sys2Proof.Machine.execPoff s
  | .attrLeaf => Sys2Proof.Machine.execAttrLeaf s
  | .attrNext => Sys2Proof.Machine.execAttrNext s
  | .isLeaf => Sys2Proof.Machine.execIsLeaf s
  | .isPresent => Sys2Proof.Machine.execIsPresent s
  | .permRm prot => Sys2Proof.Machine.execPermRm prot s
  | .permAdd prot => Sys2Proof.Machine.execPermAdd prot s
  | .permTest prot => Sys2Proof.Machine.execPermTest prot s
  | .satpMake => Sys2Proof.Machine.execSatpMake s
  | .pteMake => Sys2Proof.Machine.execPteMake s
  | .ptePa => Sys2Proof.Machine.execPtePa s
  | .reservedE rest => Sys2Proof.Machine.execReservedE rest s
  | .reservedF rest => Sys2Proof.Machine.execReservedF rest s

end Sys2Proof.Machine
end

