-- ==== Sys2Proof/Machine/Step.lean ====
section
/-! DEFINITION. One step is one request (10_state.md R15): decode what is on CMD, run it, or reject it. -/

namespace Sys2Proof.Machine

/-- The step. It answers a next state for every state (10_state.md R15, R30; 70_reset_and_hazards.md R113). -/
def step (s : State) : Host.Outcome State Fault Refusal :=
  match decode (fetch s) with
  | .ok i => exec i s
  | .error e => reject e s

/-- `s` with an instruction on the command port, where the next step reads it (log entry 2): `w` numbered as the
opcode table numbers it, the bits from `nbits` up 0. A and B stay as they are: they are the host's to drive. -/
def State.withFetchWord (s : State) (nbits w : Nat) : State :=
  { s with cmd := BitVec.ofNat 32 (w % 2 ^ nbits) }

end Sys2Proof.Machine
end

