-- ==== Sys2Proof/Config.lean ====
section
/-! DEFINITION. What the spec leaves to the platform: the OPEN parameters (92_eei_decisions.md D17, D20;
93_implementation_defined.md U5) and what the hart holds when the host starts. All belong to the host's side; no codec
rule reads one. The codec's own constants (00_scope.md R7 to R9) are fixed values and stand in Machine/Constants.lean. No
value of the codec is open, so there is no free value here. -/

namespace Sys2Proof

/-- The byte order of an entry in page-table memory. The spec names the parameter and gives the meaning of its default,
little, alone (20_memory.md R33, 92_eei_decisions.md D17). DESIGN CHOICE, unsafe: that there is one other value, big, and
that it stores the same eight bytes in reverse (log entry 18). -/
inductive ByteOrder where
  | little
  | big
  deriving DecidableEq, Repr

/-- The OPEN parameters of the host's side. A claim that rests on one names its value. The last three are what the hart
holds when the host starts, which the spec does not say (70_reset_and_hazards.md R113): they are left open too, with no
default (log entry 21). -/
structure HostParams where
  /-- PTE_BYTE_ORDER, default little (20_memory.md R33). -/
  pteByteOrder : ByteOrder := .little
  /-- ROOT_SWITCH_FLUSHES_TLB, no default (42_translation_control.md R90). -/
  rootSwitchFlushesTlb : Bool
  /-- When an installed root takes effect, which 93_implementation_defined.md U5 makes a parameter, no default. DESIGN
  CHOICE of its form: after an install this many translations may still consult the root before it, `some 0` being at
  once and `none` being not before an invalidation (log entry 22). -/
  rootTakesEffectAfter : Option Nat
  /-- What SATP holds at the start (log entry 21). -/
  satpAtStart : Word
  /-- Whether user page access is enabled at the start (log entry 21). -/
  userAccessAtStart : Bool
  /-- Whether cached copies may be out of date at the start (log entry 21). -/
  staleAtStart : Bool
  deriving DecidableEq, Repr

end Sys2Proof
end

