-- ==== Sys2Proof/Machine/Requests.lean ====
section
/-! DEFINITION. The codec as the function PAC(CMD, A, B) -> (R, ST) (10_state.md R15), and several requests of one or
of many hosts (10_state.md R27, 20_memory.md R38, 60_exceptions.md R103). -/

namespace Sys2Proof.Machine

/-- PAC(CMD, A, B) (10_state.md R15): the response to a request. -/
def pac (q : Request) : Option Response := responseOf (step (State.present q State.reset))

/-- The host presents one request and the codec answers it. -/
def serve (q : Request) (s : State) : Outcome := step (State.present q s)

/-- The responses to requests presented one after another, in the order of the list, from one state of the ports. -/
def serveAll : List Request → State → List (Option Response)
  | [], _ => []
  | q :: qs, s =>
    match serve q s with
    | .next t => t.response :: serveAll qs t
    | .fault _ => none :: serveAll qs s
    | .refused _ => none :: serveAll qs s

/-- The command word of an instruction with its operands (30_encoding.md R58's triple). -/
def requestOf (i : Instr) (a b : Word) : Request where
  cmd := encode i
  a := a
  b := b

end Sys2Proof.Machine
end

