-- ==== Sys2Proof/Machine/Table.lean ====
section
/-! DEFINITION. Sparse contents by number, for the host's temporaries and page-table memory: pairs in rising order of
number, each number once, so that equal contents are equal lists. A number that is not listed holds nothing. -/

namespace Sys2Proof.Machine

/-- Contents by number. -/
abbrev Table (β : Type) := List (Nat × β)

/-- The canonical form: the numbers rise strictly. -/
def Table.wf {β : Type} : Table β → Bool
  | [] => true
  | [_] => true
  | (m, _) :: (n, v) :: rest => decide (m < n) && Table.wf ((n, v) :: rest)

def Table.read {β : Type} (n : Nat) : Table β → Option β
  | [] => none
  | (m, v) :: rest => if m = n then some v else Table.read n rest

def Table.write {β : Type} (n : Nat) (v : β) : Table β → Table β
  | [] => [(n, v)]
  | (m, w) :: rest =>
    if n < m then (n, v) :: (m, w) :: rest
    else if n = m then (n, v) :: rest
    else (m, w) :: Table.write n v rest

end Sys2Proof.Machine
end

