-- ==== Sys2Proof/Machine/Manager.lean ====
section
/-! DEFINITION. The contract of the host, the external page-table manager, as far as the spec writes it down: stored
entries and their byte order (20_memory.md R33), the three translation-control primitives (42_translation_control.md
R88 to R90) and the duties of order (70_reset_and_hazards.md R107, R109 to R111). All of it is outside the codec
(00_scope.md R6) and apart from State; walking and translating are out of scope and not here. -/

namespace Sys2Proof.Machine

/-! ### Entries as bytes -/

/-- The bytes of an entry from address offset 0 upward (20_memory.md R33): little puts bits 8k+7:8k into byte k,
as the rule says. DESIGN CHOICE: big is the reverse (log entry 18). -/
def entryBytes (o : ByteOrder) (e : Word) : List (BitVec 8) :=
  let low := (List.range 8).map fun k => e.extractLsb' (8 * k) 8
  match o with
  | .little => low
  | .big => low.reverse

/-- The number whose bytes are these, least significant first. -/
def bytesValue : List (BitVec 8) → Nat
  | [] => 0
  | x :: xs => x.toNat + 256 * bytesValue xs

/-- The entry whose stored bytes are these. -/
def entryOfBytes (o : ByteOrder) (bytes : List (BitVec 8)) : Word :=
  match o with
  | .little => BitVec.ofNat 64 (bytesValue bytes)
  | .big => BitVec.ofNat 64 (bytesValue bytes.reverse)

/-! ### Page-table memory, owned by the host (20_memory.md R31) -/

/-- The bytes written so far, by address. An address that is not listed holds nothing the host has written (log
entry 14). -/
abbrev PageMemory := Table (BitVec 8)

/-- Bytes at rising addresses. -/
def PageMemory.writeBytes (addr : Nat) : List (BitVec 8) → PageMemory → PageMemory
  | [], m => m
  | v :: vs, m => PageMemory.writeBytes (addr + 1) vs (Table.write addr v m)

def PageMemory.readBytes (addr : Nat) : Nat → PageMemory → Option (List (BitVec 8))
  | 0, _ => some []
  | n + 1, m =>
    (Table.read addr m).bind fun v => (PageMemory.readBytes (addr + 1) n m).map fun vs => v :: vs

/-- Storing an entry: its eight bytes in the order PTE_BYTE_ORDER (20_memory.md R33). DESIGN CHOICE: any byte address is
taken, aligned or not, so two entries may overlap, and then the later store stands (log entry 23). -/
def PageMemory.storeEntry (o : ByteOrder) (addr : Nat) (e : Word) (m : PageMemory) : PageMemory :=
  PageMemory.writeBytes addr (entryBytes o e) m

def PageMemory.loadEntry (o : ByteOrder) (addr : Nat) (m : PageMemory) : Option Word :=
  (PageMemory.readBytes addr 8 m).map (entryOfBytes o)

/-- The address of a slot of a table. The spec numbers the slots of a table (95_test_vectors.md P3) and gives none of them
an address. DESIGN CHOICE, unsafe: slot n stands 8 * n bytes from the table's address (log entry 19). -/
def slotAddress (table index : Word) : Nat := table.toNat + 8 * index.toNat

/-- An address is that of one of the slots of a table, of which there are as many as a 9-bit index has values
(00_scope.md R7; log entry 19). -/
def isSlotOf (table : Word) (addr : Nat) : Bool :=
  decide (table.toNat ≤ addr) && decide (addr < table.toNat + 8 * 2 ^ VPN0_BIT) && (addr - table.toNat) % 8 == 0

/-- The entries the host has stored in a table. -/
def PageMemory.entriesOf (o : ByteOrder) (table : Word) (m : PageMemory) : List Word :=
  m.filterMap fun c => if isSlotOf table c.1 then PageMemory.loadEntry o c.1 m else none

/-- The table a present next-level entry points to (00_scope.md R14; 90_conflicts.md C6), none for another entry. -/
def nextTable (e : Word) : Option Word :=
  if anySet e PTE_V && !anySet e PTE_XWR_MASK then some (entryAddress e) else none

/-- The table, and every table it points to on the `n` levels from it down, exists in page-table memory, as an install
needs (70_reset_and_hazards.md R107, step 1). DESIGN CHOICE: a table exists when the host has stored an entry in it
(log entry 20). -/
def PageMemory.tablesBuilt (o : ByteOrder) : Nat → Word → PageMemory → Bool
  | 0, _, _ => true
  | n + 1, table, m =>
    !(PageMemory.entriesOf o table m).isEmpty &&
      (PageMemory.entriesOf o table m).all fun e =>
        match nextTable e with
        | some next => PageMemory.tablesBuilt o n next m
        | none => true

/-! ### The host's actions -/

/-- What the contract speaks of: the codec's ports, page-table memory, SATP and the root translations consult, user page
access, and whether translations may use cached copies older than the last change (log entry 13). -/
structure Manager where
  codec : State
  pageTables : PageMemory
  /-- The translation register (10_state.md R24, 42_translation_control.md R88). -/
  satp : Word
  /-- The roots installed so far, newest first. -/
  installedRoots : List Word
  /-- The SATP value that translations consult until the one in SATP takes effect (42_translation_control.md R88). -/
  rootInUse : Word
  /-- How many translations there were since the last install. -/
  sinceInstall : Nat
  /-- User page access is enabled (42_translation_control.md R89). -/
  userAccess : Bool
  /-- Cached copies may differ from memory and SATP (70_reset_and_hazards.md R110). -/
  mayBeStale : Bool
  deriving DecidableEq, Repr

/-- Before the host has done anything: nothing is stored or installed (log entry 14), and what the hart holds is the
platform's (70_reset_and_hazards.md R113; log entry 21). -/
def Manager.start (p : HostParams) : Manager where
  codec := State.reset
  pageTables := []
  satp := p.satpAtStart
  installedRoots := []
  rootInUse := p.satpAtStart
  sinceInstall := 0
  userAccess := p.userAccessAtStart
  mayBeStale := p.staleAtStart

/-- What a host does, as far as the spec's contract reaches. -/
inductive Action where
  /-- A request to the codec. -/
  | request (q : Request)
  /-- Store an entry at an address of page-table memory (20_memory.md R31, R33). -/
  | storeEntry (addr : Nat) (e : Word)
  /-- Install root table (42_translation_control.md R88). -/
  | installRoot (root : Word)
  /-- Enable user page access (42_translation_control.md R89). -/
  | enableUserAccess
  /-- Disable user page access (42_translation_control.md R89). -/
  | disableUserAccess
  /-- Whatever invalidation the architecture requires (70_reset_and_hazards.md R110). -/
  | invalidate
  /-- A translation, with whatever root is consulted; its result is out of scope (00_scope.md R6). -/
  | translate
  /-- A translation for which the host relies on the root table at `root` (70_reset_and_hazards.md R107, R109). -/
  | translateUsing (root : Word)
  /-- An access of an instruction at the current privilege level to a page with this leaf entry
  (42_translation_control.md R89). How the entry was found is out of scope (00_scope.md R6; log entry 24). -/
  | accessPage (leaf : Word)
  deriving DecidableEq, Repr

/-- Why an action does not go through. All are safe: the host's contract stops. -/
inductive Breach where
  /-- A translation that relies on a root that has not been installed (70_reset_and_hazards.md R107, R109). DESIGN
  CHOICE: it is refused, although the codec cannot enforce the order (log entry 13). -/
  | translationBeforeRoot
  /-- An access to a page marked user-accessible while user page access is disabled (42_translation_control.md R89). -/
  | userPageRefused
  /-- SATP.MAKE answered a fault, so there is no value to install (42_translation_control.md R85, R88). -/
  | rootRefused (st : Status)
  /-- A root is installed whose tables do not exist (70_reset_and_hazards.md R107, step 1 before step 3; log entry
  20). -/
  | tablesNotBuilt
  /-- The codec gave no response. No request ends so (10_state.md R15). -/
  | noResponse
  deriving DecidableEq, Repr

/-- The host presents a request; the response is on the codec's ports. -/
def Manager.ask (q : Request) (m : Manager) : Except Breach (Manager × Response) :=
  match serve q m.codec with
  | .next s =>
    match s.response with
    | some x => .ok ({ m with codec := s }, x)
    | none => .error .noResponse
  | .fault r => nomatch r
  | .refused _ => .error .noResponse

/-- The SATP value that the next translation consults: the one in SATP once it has taken effect
(42_translation_control.md R88; 93_implementation_defined.md U5; log entry 22). -/
def Manager.consults (p : HostParams) (m : Manager) : Word :=
  match p.rootTakesEffectAfter with
  | some n => if n ≤ m.sinceInstall then m.satp else m.rootInUse
  | none => m.rootInUse

/-- No translation uses an older copy from here on: what invalidation leaves (70_reset_and_hazards.md R110). -/
def Manager.flush (m : Manager) : Manager := { m with rootInUse := m.satp, mayBeStale := false }

/-- SATP gets the value of a root. Translations may use older copies afterwards unless a root switch flushes
(42_translation_control.md R88, R90; 70_reset_and_hazards.md R110). -/
def Manager.setRoot (p : HostParams) (root v : Word) (m : Manager) : Manager :=
  let m' := { m with
    satp := v, installedRoots := root :: m.installedRoots, rootInUse := m.consults p, sinceInstall := 0, mayBeStale := true }
  if p.rootSwitchFlushesTlb then m'.flush else m'

/-- Install root table: the value written is the one SATP.MAKE gives (42_translation_control.md R88). It must exist, and
so must the tables it points to, which 70_reset_and_hazards.md R107 asks of the host. DESIGN CHOICE: an install without
them is refused (log entry 20). -/
def Manager.installRoot (p : HostParams) (root : Word) (m : Manager) : Except Breach Manager :=
  match m.ask (requestOf .satpMake root 0#64) with
  | .error e => .error e
  | .ok (m', x) =>
    match x.result with
    | some v =>
      if PageMemory.tablesBuilt p.pteByteOrder LEVELS root m.pageTables then .ok (m'.setRoot p root v)
      else .error .tablesNotBuilt
    | none => .error (.rootRefused x.status)

/-- A translation: the root it consults stays in use. -/
def Manager.translate (p : HostParams) (m : Manager) : Manager :=
  { m with rootInUse := m.consults p, sinceInstall := m.sinceInstall + 1 }

/-- Whether an instruction at the current privilege level may access the page, as far as user page access decides it
(42_translation_control.md R89). -/
def Manager.mayAccess (leaf : Word) (m : Manager) : Bool := m.userAccess || !anySet leaf PTE_U

/-- One action of the host. DESIGN CHOICE: an access to a page is not counted as a translation; it consults no root and
leaves all of the record as it was (log entry 24). -/
def Manager.act (p : HostParams) (m : Manager) : Action → Except Breach Manager
  | .request q => (m.ask q).map Prod.fst
  | .storeEntry addr e =>
    .ok { m with pageTables := m.pageTables.storeEntry p.pteByteOrder addr e, mayBeStale := true }
  | .installRoot root => m.installRoot p root
  | .enableUserAccess => .ok { m with userAccess := true }
  | .disableUserAccess => .ok { m with userAccess := false }
  | .invalidate => .ok m.flush
  | .translate => .ok (m.translate p)
  | .translateUsing root => if root ∈ m.installedRoots then .ok (m.translate p) else .error .translationBeforeRoot
  | .accessPage leaf => if m.mayAccess leaf then .ok m else .error .userPageRefused

/-- Actions one after another, stopping at the first breach. Two contexts that install roots without coordination
are one list in the order that happened; the last install wins (70_reset_and_hazards.md R111). -/
def Manager.actAll (p : HostParams) : List Action → Manager → Except Breach Manager
  | [], m => .ok m
  | x :: xs, m =>
    match m.act p x with
    | .ok m' => Manager.actAll p xs m'
    | .error e => .error e

end Sys2Proof.Machine
end

