-- ==== Sys2Proof/Machine/Assembler.lean ====
section
/-! DEFINITION. The assembly notation of the host (30_encoding.md R55, R56, R58): from the text of one instruction to
an instruction with its operands. What the notation leaves open (white space, decimal literals, where an underscore
may stand) is log entry 12. Text is a list of characters. -/

namespace Sys2Proof.Machine

/-- An operand A or B: a 64-bit literal or a host temporary (30_encoding.md R55, R57). -/
inductive Operand where
  | lit (v : Word)
  | temp (n : Nat)
  deriving DecidableEq, Repr

/-- One instruction of the notation; B is written for PTE.MAKE alone (30_encoding.md R55). -/
structure AsmInstr where
  instr : Instr
  a : Operand
  b : Option Operand
  deriving DecidableEq, Repr

/-! ### Words of a line -/

abbrev Text := List Char

/-- Ends the word read so far. -/
def flushWord (acc : Text) (rest : List Text) : List Text :=
  if acc.isEmpty then rest else acc.reverse :: rest

/-- A line's words. White space separates; a comma and a colon are words of their own; a semicolon begins a
comment (95_test_vectors.md L3). -/
def wordsFrom : Text → Text → List Text
  | [], acc => flushWord acc []
  | c :: cs, acc =>
    if c == ';' then flushWord acc []
    else if c == ' ' || c == '\t' then flushWord acc (wordsFrom cs [])
    else if c == ',' || c == ':' then flushWord acc ([c] :: wordsFrom cs [])
    else wordsFrom cs (c :: acc)

def words (line : Text) : List Text := wordsFrom line []

/-! ### Literals and operands -/

/-- The value of a digit below `base`. -/
def digitValue (base : Nat) (c : Char) : Option Nat :=
  let n := c.toNat
  let v :=
    if 48 ≤ n ∧ n ≤ 57 then n - 48
    else if 97 ≤ n ∧ n ≤ 102 then n - 87
    else if 65 ≤ n ∧ n ≤ 70 then n - 55
    else base
  if v < base then some v else none

/-- A digit, then digits and underscores; an underscore only groups digits (00_scope.md R10). -/
def digitsFrom (base : Nat) : Text → Nat → Option Nat
  | [], n => some n
  | c :: cs, n =>
    if c == '_' then digitsFrom base cs n
    else (digitValue base c).bind fun d => digitsFrom base cs (base * n + d)

def digits (base : Nat) : Text → Option Nat
  | [] => none
  | c :: cs => (digitValue base c).bind fun d => digitsFrom base cs d

/-- A number, hexadecimal after 0x and decimal otherwise (00_scope.md R10). -/
def number : Text → Option Nat
  | '0' :: 'x' :: cs => digits 16 cs
  | cs => digits 10 cs

/-- A 64-bit literal (30_encoding.md R55); a larger number is refused. -/
def literal (w : Text) : Option Word :=
  (number w).bind fun n => if n < 2 ^ 64 then some (BitVec.ofNat 64 n) else none

/-- `tN` (30_encoding.md R57). DESIGN CHOICE: N is decimal digits with leading zeros and underscores allowed, so t01 and
t1 are one temporary (log entry 25). -/
def temporary : Text → Option Nat
  | 't' :: cs => digits 10 cs
  | _ => none

def operand (w : Text) : Option Operand :=
  match temporary w with
  | some n => some (.temp n)
  | none => (literal w).map .lit

/-- A level is 0, 1 or 2; any other is refused (30_encoding.md R55). -/
def levelWord (w : Text) : Option Level :=
  match number w with
  | some 0 => some .l0
  | some 1 => some .l1
  | some 2 => some .l2
  | _ => none

/-- `<perm>.<prin>[.c]` (30_encoding.md R55). -/
def permLetter (c : Char) : Option Perm :=
  if c == 'r' then some .read else if c == 'w' then some .write else if c == 'x' then some .execute else none

def prinLetter (c : Char) : Option Prin :=
  if c == 'k' then some .kernel else if c == 'u' then some .user else none

def protWord : Text → Option Prot
  | [p, '.', q] => (permLetter p).bind fun p => (prinLetter q).map fun q => { perm := p, prin := q, cache := false }
  | [p, '.', q, '.', 'c'] =>
    (permLetter p).bind fun p => (prinLetter q).map fun q => { perm := p, prin := q, cache := true }
  | _ => none

/-! ### Instructions -/

/-- The operand forms of 30_encoding.md R55 and R56. -/
inductive Form where
  /-- `mnemonic A, <level>` -/
  | level (f : Level → Instr)
  /-- `mnemonic A` -/
  | one (i : Instr)
  /-- `mnemonic A, <prot>` -/
  | prot (f : Prot → Instr)
  /-- `mnemonic A, B` -/
  | two (i : Instr)
  /-- a pseudo-instruction: `mnemonic`, for the instruction with A = 0 (R56) -/
  | pseudo (i : Instr)

/-- The mnemonics of 30_encoding.md R48 and R56 with their forms. -/
def mnemonicForms : List (String × Form) :=
  [("vpn", .level .vpn), ("ppn", .level .ppn), ("voff", .one .voff), ("poff", .one .poff),
   ("attr.leaf", .one .attrLeaf), ("attr.next", .one .attrNext), ("is.leaf", .one .isLeaf),
   ("is.present", .one .isPresent)]
  ++
  [("perm.rm", .prot .permRm), ("perm.add", .prot .permAdd), ("perm.test", .prot .permTest),
   ("satp.make", .one .satpMake), ("pte.make", .two .pteMake), ("pte.pa", .one .ptePa),
   ("attr.leaf.default", .pseudo .attrLeaf), ("attr.next.default", .pseudo .attrNext)]

/-- A mnemonic is not case-sensitive (30_encoding.md R55). -/
def formOf (w : Text) : Option Form :=
  (mnemonicForms.find? fun m => m.1.toList == w.map Char.toLower).map Prod.snd

/-- The words after the mnemonic, as its form asks for them. -/
def assembleForm : Form → List Text → Option AsmInstr
  | .level f, [a, [','], l] =>
    (operand a).bind fun a => (levelWord l).map fun l => { instr := f l, a := a, b := none }
  | .one i, [a] => (operand a).map fun a => { instr := i, a := a, b := none }
  | .prot f, [a, [','], p] =>
    (operand a).bind fun a => (protWord p).map fun p => { instr := f p, a := a, b := none }
  | .two i, [a, [','], b] =>
    (operand a).bind fun a => (operand b).map fun b => { instr := i, a := a, b := some b }
  | .pseudo i, [] => some { instr := i, a := .lit 0#64, b := none }
  | _, _ => none

/-- One instruction from its words. -/
def assembleWords : List Text → Option AsmInstr
  | m :: rest => (formOf m).bind fun f => assembleForm f rest
  | [] => none

/-- One instruction from its text. -/
def assemble (line : String) : Option AsmInstr := assembleWords (words line.toList)

end Sys2Proof.Machine
end

