-- ==== Sys2Proof/Machine/Program.lean ====
section
/-! DEFINITION. Programs of the host (30_encoding.md R57, 70_reset_and_hazards.md R113): lines that issue requests
into temporaries, and the host's own control lines. They are the host's, not the codec's (10_state.md R22), so their
state is apart from State. What the notation leaves open is log entry 9. -/

namespace Sys2Proof.Machine

/-- A line of a program (30_encoding.md R57). -/
inductive Line where
  /-- `tN = <instruction>` -/
  | assign (t : Nat) (i : AsmInstr)
  /-- `if tN == v goto L` -/
  | ifGoto (t : Nat) (v : Word) (target : String)
  /-- `goto L` -/
  | goto (target : String)
  /-- `L:` -/
  | label (name : String)
  /-- `halt` -/
  | halt
  deriving DecidableEq, Repr

/-! ### Text -/

/-- A label (30_encoding.md R57). DESIGN CHOICE: any word may be one, halt and t0 too, but for a lone comma or colon
(log entry 26). -/
def labelWord (w : Text) : Option String :=
  if w == [','] || w == [':'] then none else some (String.ofList w)

/-- The lines that a text line's words stand for: a label may stand before another line (95_test_vectors.md P2). -/
def lineOfWords : List Text → Option Line
  | [['h', 'a', 'l', 't']] => some .halt
  | [['g', 'o', 't', 'o'], l] => (labelWord l).map .goto
  | [['i', 'f'], t, ['=', '='], v, ['g', 'o', 't', 'o'], l] =>
    (temporary t).bind fun t => (literal v).bind fun v => (labelWord l).map fun l => .ifGoto t v l
  | t :: ['='] :: rest => (temporary t).bind fun t => (assembleWords rest).map fun i => .assign t i
  | _ => none

/-- The lines of one text line. DESIGN CHOICE: one label at most stands on it, alone or before another line (log entry
26). -/
def parseLine : List Text → Option (List Line)
  | [] => some []
  | [l, [':']] => (labelWord l).map fun l => [.label l]
  | l :: [':'] :: rest => (labelWord l).bind fun l => (lineOfWords rest).map fun x => [.label l, x]
  | ws => (lineOfWords ws).map fun x => [x]

/-- A program from its text lines; none if one of them is no line of the notation. -/
def parseProgram : List String → Option (List Line)
  | [] => some []
  | l :: ls => (parseLine (words l.toList)).bind fun x => (parseProgram ls).map fun xs => x ++ xs

/-! ### Running -/

/-- The temporaries written so far. -/
abbrev Temps := Table Word

/-- A program as it runs: its lines, the place of the next one, the host's temporaries and the codec. -/
structure ProgState where
  lines : List Line
  pos : Nat
  temps : Temps
  codec : State
  deriving DecidableEq, Repr

/-- The start state: the empty set of temporaries, the first line (95_test_vectors.md L3). -/
def ProgState.start (lines : List Line) : ProgState where
  lines := lines
  pos := 0
  temps := []
  codec := State.reset

/-- How a program ends (70_reset_and_hazards.md R113). -/
inductive ProgOutcome where
  /-- At `halt`. -/
  | ok
  /-- At the first response with ST other than 0. -/
  | fault (st : Status)
  deriving DecidableEq, Repr

/-- A text that is no program of the notation, found as it runs (log entry 9). Safe: the program stops. -/
inductive ProgStuck where
  /-- An operand or condition names a temporary that no line has written. -/
  | unwrittenTemp (n : Nat)
  /-- A goto names a label that no line has. -/
  | unknownLabel (name : String)
  /-- The last line is passed without `halt`. -/
  | noHalt
  /-- The codec gave no response. No request ends so (10_state.md R15), and a law says that no line does. -/
  | noResponse
  deriving DecidableEq, Repr

/-- What one line of a program comes to. -/
inductive ProgStep where
  | running (p : ProgState)
  | ended (o : ProgOutcome) (temps : Temps)
  | stuck (r : ProgStuck)
  deriving DecidableEq, Repr

/-- The value of an operand, or the number of the temporary that has none. -/
def Operand.value (ts : Temps) : Operand → Except Nat Word
  | .lit v => .ok v
  | .temp n => match Table.read n ts with
    | some v => .ok v
    | none => .error n

/-- A request in a listing: CMD, A, and B or `-` (30_encoding.md R58). -/
structure Listing where
  cmd : Cmd
  a : Word
  b : Option Word
  deriving DecidableEq, Repr

/-- An instruction line as a listing, its operands read (30_encoding.md R57, R58). -/
def AsmInstr.listing (i : AsmInstr) (ts : Temps) : Except Nat Listing :=
  match i.a.value ts, i.b with
  | .error n, _ => .error n
  | .ok a, none => .ok { cmd := encode i.instr, a := a, b := none }
  | .ok a, some o => (o.value ts).map fun b => { cmd := encode i.instr, a := a, b := some b }

/-- The request of a listing. DESIGN CHOICE: where the listing writes no B, 0 is sent. Where the operation ignores B any
value gives the same response (10_state.md R18, 30_encoding.md R58). A PTE.MAKE listing with no B is none that the spec
gives, and the 0 decides its response; no text assembles to one (log entry 10). -/
def Listing.request (l : Listing) : Request where
  cmd := l.cmd
  a := l.a
  b := l.b.getD 0#64

/-- The request of an instruction line. -/
def AsmInstr.toRequest (i : AsmInstr) (ts : Temps) : Except Nat Request :=
  (i.listing ts).map Listing.request

/-- The place of a label, the first of its name (log entry 16). -/
def labelPos (name : String) : List Line → Nat → Option Nat
  | [], _ => none
  | x :: xs, k => if x = .label name then some k else labelPos name xs (k + 1)

def ProgState.jump (p : ProgState) (target : String) : ProgStep :=
  match labelPos target p.lines 0 with
  | some k => .running { p with pos := k }
  | none => .stuck (.unknownLabel target)

/-- A request line: the codec answers, and the program goes on with the result or stops at once with the fault, whose
R is no result (30_encoding.md R57; 60_exceptions.md R92). -/
def ProgState.issue (p : ProgState) (t : Nat) (q : Request) : ProgStep :=
  match serve q p.codec with
  | .next s =>
    match s.response with
    | some x =>
      match x.result with
      | some v => .running { p with pos := p.pos + 1, temps := Table.write t v p.temps, codec := s }
      | none => .ended (.fault x.status) p.temps
    | none => .stuck .noResponse
  | .fault r => nomatch r
  | .refused _ => .stuck .noResponse

/-- One line (30_encoding.md R57). -/
def progStep (p : ProgState) : ProgStep :=
  match p.lines[p.pos]? with
  | none => .stuck .noHalt
  | some .halt => .ended .ok p.temps
  | some (.label _) => .running { p with pos := p.pos + 1 }
  | some (.goto l) => p.jump l
  | some (.ifGoto t v l) =>
    match Table.read t p.temps with
    | none => .stuck (.unwrittenTemp t)
    | some w => if w = v then p.jump l else .running { p with pos := p.pos + 1 }
  | some (.assign t i) =>
    match i.toRequest p.temps with
    | .error n => .stuck (.unwrittenTemp n)
    | .ok q => p.issue t q

/-- At most `fuel` lines. A program whose control lines loop forever does not end (70_reset_and_hazards.md R113). -/
def runProgram : Nat → ProgState → ProgStep
  | 0, p => .running p
  | n + 1, p =>
    match progStep p with
    | .running p' => runProgram n p'
    | .ended o ts => .ended o ts
    | .stuck r => .stuck r

end Sys2Proof.Machine
end

