-- ==== Sys2Proof/Machine/Reference.lean ====
section
/-! DEFINITION. The codec a second time, read from the tables of 30_encoding.md R47, 40_layout_codec.md R59 and
60_exceptions.md R93 to R96 over the raw words, without the decoder, the instructions, the shared operations or the
constants of the machine. It is not run by the machine: a statement says that the two agree. Values are computed as
numbers where the machine shifts and masks. -/

namespace Sys2Proof.Machine

/-- v[hi:lo] read as an unsigned number (00_scope.md R10). -/
def sliceNat (v : Nat) (hi lo : Nat) : Nat := v / 2 ^ lo % 2 ^ (hi + 1 - lo)

/-- When a request is MalformedCommand (60_exceptions.md R93), with the last column of 30_encoding.md R47. -/
def Request.malformedCommand (q : Request) : Bool :=
  let c := q.cmd.toNat
  match c % 16 with
  | 0 | 1 => sliceNat c 31 6 != 0 || sliceNat c 5 4 == 3
  | 8 | 9 | 10 => sliceNat c 31 13 != 0 || sliceNat c 7 4 != 0 || sliceNat c 9 8 == 3 || sliceNat c 11 10 ≥ 2
  | 14 | 15 => true
  | _ => sliceNat c 31 4 != 0

/-- When a legal command's operands are MalformedOperand (60_exceptions.md R94, row by row). -/
def Request.malformedOperand (q : Request) : Bool :=
  let a := q.a.toNat
  match q.cmd.toNat % 16 with
  | 0 | 2 => !(sliceNat a 63 38 == 0 || sliceNat a 63 38 == 0x3FFFFFF)
  | 1 | 3 => sliceNat a 63 56 != 0
  | 4 => sliceNat a 63 10 != 0
  | 5 => sliceNat a 63 10 != 0 || q.a.getLsbD 3 || q.a.getLsbD 2 || q.a.getLsbD 1 || q.a.getLsbD 4 ||
      q.a.getLsbD 6 || q.a.getLsbD 7
  | 11 => sliceNat a 63 56 != 0 || sliceNat a 11 0 != 0
  | 12 => sliceNat a 63 56 != 0 || sliceNat a 11 0 != 0 || sliceNat q.b.toNat 63 10 != 0
  | _ => false

/-- When a legal command is UnsupportedCombination: a prot other than (WRITE, USER, 0) in PERM.*
(60_exceptions.md R95). -/
def Request.unsupported (q : Request) : Bool :=
  let c := q.cmd.toNat
  match c % 16 with
  | 8 | 9 | 10 => !(sliceNat c 9 8 == 1 && sliceNat c 11 10 == 1 && sliceNat c 12 12 == 0)
  | _ => false

/-- The result of a request that completes, as a number (40_layout_codec.md R60 to R69, 41_permission_algebra.md R75
to R77, 42_translation_control.md R85). -/
def Request.resultNat (q : Request) : Nat :=
  let a := q.a.toNat
  let c := q.cmd.toNat
  match c % 16 with
  | 0 => a / 2 ^ (12 + 9 * sliceNat c 5 4) % 512
  | 1 => if sliceNat c 5 4 = 2 then sliceNat a 55 30 else if sliceNat c 5 4 = 1 then sliceNat a 29 21 else sliceNat a 20 12
  | 2 | 3 => a % 4096
  | 4 => (q.a ||| 0x3F#64).toNat
  | 5 => (q.a ||| 0x21#64).toNat
  | 6 => if sliceNat a 3 1 = 0 then 0 else 1
  | 7 => a % 2
  | 8 => if sliceNat a 2 2 = 1 then a - 4 else a
  | 9 => if sliceNat a 2 2 = 1 then a else a + 4
  | 10 => sliceNat a 2 2
  | 11 => 8 * 2 ^ 60 + a / 4096
  | 12 => a / 4096 * 1024 + q.b.toNat
  | 13 => sliceNat a 53 10 * 4096
  | _ => 0

/-- The response, with the priority of 60_exceptions.md R96 and R = 0 on a fault (R92). -/
def Request.expected (q : Request) : Response :=
  if q.malformedCommand then { r := 0#64, st := 1#2 }
  else if q.malformedOperand then { r := 0#64, st := 2#2 }
  else if q.unsupported then { r := 0#64, st := 3#2 }
  else { r := BitVec.ofNat 64 q.resultNat, st := 0#2 }

end Sys2Proof.Machine
end

