-- ==== Sys2Proof/Safety.lean ====
section
/-! DEFINITION. What counts as a safe state and a safe answer of the codec, in the terms the statements use. -/

namespace Sys2Proof.Machine

/-- The outputs are those of the request on the inputs (10_state.md R15, R29), or there are none. -/
def Coherent (s : State) : Prop := ∀ x, s.response = some x → x = s.request.expected

/-- A faulted response carries no value: R is 0 whenever ST is not (60_exceptions.md R92). -/
def FaultIsBare (s : State) : Prop := ∀ x, s.response = some x → x.st ≠ 0#2 → x.r = 0#64

/-- The inputs are the host's: a request leaves them as they are (00_scope.md R12, 20_memory.md R32). -/
def SameInputs (s t : State) : Prop := t.cmd = s.cmd ∧ t.a = s.a ∧ t.b = s.b

/-- The level numbers 0, 1 and 2 (30_encoding.md R43). -/
def LevelNumber (l : Level) (n : Nat) : Prop :=
  (l = .l0 ∧ n = 0) ∨ (l = .l1 ∧ n = 1) ∨ (l = .l2 ∧ n = 2)

/-- A canonical virtual address, as 00_scope.md R13 states it: v[63:38] is 0 or 26 ones. -/
def CanonicalVa (v : Word) : Prop := v >>> 38 = 0#64 ∨ v >>> 38 = 0x3FFFFFF#64

/-- A valid physical address, as 00_scope.md R13 states it: v[63:56] is 0. -/
def ValidPa (v : Word) : Prop := v >>> 56 = 0#64

/-- write.user with no cache qualifier, the one supported prot (41_permission_algebra.md R73). -/
def writeUser : Prot where
  perm := .write
  prin := .user
  cache := false

/-- The state `s` answered with R = v and ST = st: nothing else of it changes (00_scope.md R12). -/
def State.answered (s : State) (v : Word) (st : BitVec 2) : State :=
  { s with response := some { r := v, st := st } }

/-- Exactly one command word decodes to `i`. -/
def EncodedAs (i : Instr) (w : Cmd) : Prop := ∀ c, decode c = .ok i ↔ c = w

/-- A command with the OP of a row, but with a bit outside that row's match and mask, is MalformedCommand
(30_encoding.md R44, R46, R47, R54). -/
def FaultsOutsideRow (matchBits mask : Cmd) : Prop :=
  ∀ s : State, s.cmd.extractLsb' 0 4 = matchBits.extractLsb' 0 4 → s.cmd &&& mask ≠ matchBits →
    step s = .next (s.answered 0#64 1#2)

/-- The encoding of PERM.RM, PERM.ADD and PERM.TEST (41_permission_algebra.md R75 to R77): the row's match under the
mask 0xFFFFE0FF, with the prot in CMD[9:8], CMD[11:10] and CMD[12]. -/
def EncodesProt (f : Prot → Instr) (matchBits : Cmd) : Prop :=
  ∀ c p, decode c = .ok (f p) ↔
    c &&& 0xFFFFE0FF#32 = matchBits ∧ c.extractLsb' 8 2 = p.perm.field ∧ c.extractLsb' 10 2 = p.prin.field ∧
      c.getLsbD 12 = p.cache ∧ p.wellFormed = true

end Sys2Proof.Machine
end

