-- ==== Sys2Proof/Certificates/Slice0/Obligations.lean ====
section
/-! DEFINITION. The statements for the provers. Each docstring names the rule it formalises. Every instruction has a
statement of its own that says with which next state it completes, and on which operands it answers a fault; the
equalities of whole states are the frame: the inputs stay, and R and ST are all that is written. The codec has no
memory, register or flag beside them. -/

open Sys2Proof Sys2Proof.Machine

/-! ### Each operation -/

/-- 40_layout_codec.md R60. -/
def Obligations.VpnExtractsIndexField : Prop :=
  FaultsOutsideRow 0x00000000#32 0xFFFFFFCF#32 ∧
  (EncodedAs (.vpn .l0) 0x00000000#32 ∧ EncodedAs (.vpn .l1) 0x00000010#32 ∧ EncodedAs (.vpn .l2) 0x00000020#32) ∧
  (∀ (s : State) l n, LevelNumber l n → CanonicalVa s.a →
    exec (.vpn l) s = .next (s.answered ((s.a >>> (12 + 9 * n)) &&& 0x1FF#64) 0#2)) ∧
  (∀ (s : State) l n, LevelNumber l n → ¬ CanonicalVa s.a → exec (.vpn l) s = .next (s.answered 0#64 2#2)) ∧
  (∀ s : State, exec (.vpn .reserved) s = .next (s.answered 0#64 1#2))

/-- 40_layout_codec.md R61. -/
def Obligations.PpnExtractsFrameField : Prop :=
  FaultsOutsideRow 0x00000001#32 0xFFFFFFCF#32 ∧
  (EncodedAs (.ppn .l0) 0x00000001#32 ∧ EncodedAs (.ppn .l1) 0x00000011#32 ∧ EncodedAs (.ppn .l2) 0x00000021#32) ∧
  (∀ s : State, ValidPa s.a →
    exec (.ppn .l0) s = .next (s.answered ((s.a >>> 12) &&& 0x1FF#64) 0#2) ∧
    exec (.ppn .l1) s = .next (s.answered ((s.a >>> 21) &&& 0x1FF#64) 0#2) ∧
    exec (.ppn .l2) s = .next (s.answered ((s.a >>> 30) &&& 0x3FFFFFF#64) 0#2)) ∧
  (∀ (s : State) l n, LevelNumber l n → ¬ ValidPa s.a → exec (.ppn l) s = .next (s.answered 0#64 2#2)) ∧
  (∀ s : State, exec (.ppn .reserved) s = .next (s.answered 0#64 1#2))

/-- 40_layout_codec.md R62 (the split into VOFF and POFF is the spec's own decision D24). -/
def Obligations.VoffExtractsPageOffset : Prop :=
  FaultsOutsideRow 0x00000002#32 0xFFFFFFFF#32 ∧
  EncodedAs .voff 0x00000002#32 ∧
  (∀ s : State, CanonicalVa s.a → exec .voff s = .next (s.answered (s.a &&& 0xFFF#64) 0#2)) ∧
  (∀ s : State, ¬ CanonicalVa s.a → exec .voff s = .next (s.answered 0#64 2#2))

/-- 40_layout_codec.md R63 (decision D24). -/
def Obligations.PoffExtractsPageOffset : Prop :=
  FaultsOutsideRow 0x00000003#32 0xFFFFFFFF#32 ∧
  EncodedAs .poff 0x00000003#32 ∧
  (∀ s : State, ValidPa s.a → exec .poff s = .next (s.answered (s.a &&& 0xFFF#64) 0#2)) ∧
  (∀ s : State, ¬ ValidPa s.a → exec .poff s = .next (s.answered 0#64 2#2))

/-- 40_layout_codec.md R64 (decision D13). -/
def Obligations.AttrLeafComposesLeafWord : Prop :=
  FaultsOutsideRow 0x00000004#32 0xFFFFFFFF#32 ∧
  EncodedAs .attrLeaf 0x00000004#32 ∧
  (∀ s : State, s.a >>> 10 = 0#64 → exec .attrLeaf s = .next (s.answered (s.a ||| 0x3F#64) 0#2)) ∧
  (∀ s : State, s.a >>> 10 ≠ 0#64 → exec .attrLeaf s = .next (s.answered 0#64 2#2))

/-- 40_layout_codec.md R65 (decision D14). -/
def Obligations.AttrNextComposesPointerWord : Prop :=
  FaultsOutsideRow 0x00000005#32 0xFFFFFFFF#32 ∧
  EncodedAs .attrNext 0x00000005#32 ∧
  (∀ s : State, s.a >>> 10 = 0#64 → s.a &&& 0xDE#64 = 0#64 →
    exec .attrNext s = .next (s.answered (s.a ||| 0x21#64) 0#2)) ∧
  (∀ s : State, s.a >>> 10 ≠ 0#64 ∨ s.a &&& 0xDE#64 ≠ 0#64 → exec .attrNext s = .next (s.answered 0#64 2#2))

/-- 40_layout_codec.md R66. -/
def Obligations.IsLeafTestsXwrBits : Prop :=
  FaultsOutsideRow 0x00000006#32 0xFFFFFFFF#32 ∧
  EncodedAs .isLeaf 0x00000006#32 ∧
  (∀ s : State, exec .isLeaf s = .next (s.answered (if s.a &&& 0xE#64 ≠ 0#64 then 1#64 else 0#64) 0#2))

/-- 40_layout_codec.md R67. -/
def Obligations.IsPresentReadsValidBit : Prop :=
  FaultsOutsideRow 0x00000007#32 0xFFFFFFFF#32 ∧
  EncodedAs .isPresent 0x00000007#32 ∧
  (∀ s : State, exec .isPresent s = .next (s.answered (s.a &&& 1#64) 0#2))

/-- 41_permission_algebra.md R75, with the mask of R74 (decision D10). -/
def Obligations.PermRmClearsWriteBit : Prop :=
  FaultsOutsideRow 0x00000008#32 0xFFFFE0FF#32 ∧
  EncodesProt .permRm 0x00000008#32 ∧ EncodedAs (.permRm writeUser) 0x00000508#32 ∧
  (∀ s : State, exec (.permRm writeUser) s = .next (s.answered (s.a &&& ~~~ 4#64) 0#2)) ∧
  (∀ (s : State) p, p.wellFormed = true → p ≠ writeUser → exec (.permRm p) s = .next (s.answered 0#64 3#2)) ∧
  (∀ (s : State) p, p.wellFormed = false → exec (.permRm p) s = .next (s.answered 0#64 1#2))

/-- 41_permission_algebra.md R76, with the mask of R74 (decision D10). -/
def Obligations.PermAddSetsWriteBit : Prop :=
  FaultsOutsideRow 0x00000009#32 0xFFFFE0FF#32 ∧
  EncodesProt .permAdd 0x00000009#32 ∧ EncodedAs (.permAdd writeUser) 0x00000509#32 ∧
  (∀ s : State, exec (.permAdd writeUser) s = .next (s.answered (s.a ||| 4#64) 0#2)) ∧
  (∀ (s : State) p, p.wellFormed = true → p ≠ writeUser → exec (.permAdd p) s = .next (s.answered 0#64 3#2)) ∧
  (∀ (s : State) p, p.wellFormed = false → exec (.permAdd p) s = .next (s.answered 0#64 1#2))

/-- 41_permission_algebra.md R77, with the mask of R74 (decision D10). -/
def Obligations.PermTestReadsWriteBit : Prop :=
  FaultsOutsideRow 0x0000000A#32 0xFFFFE0FF#32 ∧
  EncodesProt .permTest 0x0000000A#32 ∧ EncodedAs (.permTest writeUser) 0x0000050A#32 ∧
  (∀ s : State, exec (.permTest writeUser) s = .next (s.answered (if s.a.getLsbD 2 then 1#64 else 0#64) 0#2)) ∧
  (∀ (s : State) p, p.wellFormed = true → p ≠ writeUser → exec (.permTest p) s = .next (s.answered 0#64 3#2)) ∧
  (∀ (s : State) p, p.wellFormed = false → exec (.permTest p) s = .next (s.answered 0#64 1#2))

/-- 42_translation_control.md R85 (decision D16). -/
def Obligations.SatpMakeComposesSatpValue : Prop :=
  FaultsOutsideRow 0x0000000B#32 0xFFFFFFFF#32 ∧
  EncodedAs .satpMake 0x0000000B#32 ∧
  (∀ s : State, ValidPa s.a → s.a &&& 0xFFF#64 = 0#64 →
    exec .satpMake s = .next (s.answered ((8#64 <<< 60) ||| (s.a >>> 12)) 0#2)) ∧
  (∀ s : State, ¬ ValidPa s.a ∨ s.a &&& 0xFFF#64 ≠ 0#64 → exec .satpMake s = .next (s.answered 0#64 2#2))

/-- 40_layout_codec.md R68 (decision D15). -/
def Obligations.PteMakeComposesEntry : Prop :=
  FaultsOutsideRow 0x0000000C#32 0xFFFFFFFF#32 ∧
  EncodedAs .pteMake 0x0000000C#32 ∧
  (∀ s : State, ValidPa s.a → s.a &&& 0xFFF#64 = 0#64 → s.b >>> 10 = 0#64 →
    exec .pteMake s = .next (s.answered (((s.a >>> 12) <<< 10) ||| s.b) 0#2)) ∧
  (∀ s : State, ¬ ValidPa s.a ∨ s.a &&& 0xFFF#64 ≠ 0#64 ∨ s.b >>> 10 ≠ 0#64 →
    exec .pteMake s = .next (s.answered 0#64 2#2))

/-- 40_layout_codec.md R69 (decision D15). -/
def Obligations.PtePaTakesAddressBack : Prop :=
  FaultsOutsideRow 0x0000000D#32 0xFFFFFFFF#32 ∧
  EncodedAs .ptePa 0x0000000D#32 ∧
  (∀ s : State, exec .ptePa s = .next (s.answered (((s.a >>> 10) &&& 0xFFFFFFFFFFF#64) <<< 12) 0#2))

/-- 30_encoding.md R49: at the word, and for the two rows' instructions. -/
def Obligations.ReservedOpIsMalformedCommand : Prop :=
  (∀ s : State, s.cmd.extractLsb' 0 4 = 0xE#4 ∨ s.cmd.extractLsb' 0 4 = 0xF#4 → step s = .next (s.answered 0#64 1#2)) ∧
  (∀ (s : State) rest, exec (.reservedE rest) s = .next (s.answered 0#64 1#2)) ∧
  (∀ (s : State) rest, exec (.reservedF rest) s = .next (s.answered 0#64 1#2))

/-! ### Decoding -/

/-- Words written out from the layout of 30_encoding.md R41 and the codes of R45 and R48. -/
def Obligations.SampleWordsDecode : Prop :=
  decode 0b00000000000000000000000000100000#32 = .ok (.vpn .l2) ∧
  decode 0b00000000000000000000000000010001#32 = .ok (.ppn .l1) ∧
  decode 0b00000000000000000000000000000110#32 = .ok .isLeaf ∧
  decode 0b00000000000000000000010100001000#32 = .ok (.permRm { perm := .write, prin := .user, cache := false }) ∧
  decode 0b00000000000000000001001000001010#32 = .ok (.permTest { perm := .execute, prin := .kernel, cache := true }) ∧
  decode 0b00000000000000000000000000001011#32 = .ok .satpMake ∧
  decode 0b00000000000000000000000000001100#32 = .ok .pteMake ∧
  decode 0b00000000000000000000000000110000#32 = .error .reservedLevel ∧
  decode 0b00000000000000000000011100001000#32 = .error .reservedProt ∧
  decode 0b10000000000000000000000000000110#32 = .error .unusedBits

/-- The step runs what the decoder reads from CMD, and answers MalformedCommand for what it rejects
(30_encoding.md R54). -/
def Obligations.StepRunsDecodedInstruction : Prop :=
  (∀ (s : State) i, decode s.cmd = .ok i → step s = exec i s) ∧
  (∀ (s : State) e, decode s.cmd = .error e → step s = .next (s.answered 0#64 1#2)) ∧
  (∀ (s : State) w i, w < 2 ^ 32 → decodeTableWord 32 w = some i →
    step (s.withFetchWord 32 w) = exec i { s with cmd := BitVec.ofNat 32 w })

/-- No bit of an encoding is dropped: every well-formed instruction, at every operand value. -/
def Obligations.DecodeOfEncode : Prop :=
  ∀ i, i.wellFormed = true → decode (encode i) = .ok i

/-- One word has one meaning: a word that decodes is the encoding of what it decodes to, which is well formed. -/
def Obligations.EncodeOfDecode : Prop :=
  ∀ c i, decode c = .ok i → i.wellFormed = true ∧ encode i = c

/-- The match and mask columns of spec/opcode_table.json: an instruction's word lies in its own row and in no
other. -/
def Obligations.EveryInstructionLiesInItsRow : Prop :=
  ∀ i, i.wellFormed = true →
    ∃ row, row ∈ opcodeTable ∧ row.covers (encode i) = true ∧ row.mnemonic = i.mnemonic ∧
      ∀ other, other ∈ opcodeTable → other.covers (encode i) = true → other = row

/-- 30_encoding.md R51: a command is an operation of R48, or it faults with MalformedCommand. -/
def Obligations.EveryCommandIsAnOperationOrMalformed : Prop :=
  ∀ s : State, (∃ i, decode s.cmd = .ok i ∧ i.op.toNat < 14 ∧ i.wellFormed = true ∧ step s = exec i s) ∨
    step s = .next (s.answered 0#64 1#2)

/-- 41_permission_algebra.md R84. -/
def Obligations.NoProtAliasesAnother : Prop :=
  ∀ p q, encode (.permRm p) = encode (.permRm q) ∨ encode (.permAdd p) = encode (.permAdd q) ∨
    encode (.permTest p) = encode (.permTest q) → p = q

/-! ### Faults and their priority -/

/-- 60_exceptions.md R93: exactly when the answer is MalformedCommand. -/
def Obligations.MalformedCommandExactlyWhen : Prop :=
  ∀ s : State, step s = .next (s.answered 0#64 1#2) ↔
    let c := s.cmd
    let op := c.extractLsb' 0 4
    (op = 0xE#4 ∨ op = 0xF#4) ∨ c.extractLsb' 13 19 ≠ 0#19 ∨ c.extractLsb' 6 2 ≠ 0#2 ∨
    ((op = 0x0#4 ∨ op = 0x1#4) ∧ (c.extractLsb' 8 5 ≠ 0#5 ∨ c.extractLsb' 4 2 = 3#2)) ∨
    ((op = 0x8#4 ∨ op = 0x9#4 ∨ op = 0xA#4) ∧
      (c.extractLsb' 4 2 ≠ 0#2 ∨ c.extractLsb' 8 2 = 3#2 ∨ c.extractLsb' 10 2 = 2#2 ∨ c.extractLsb' 10 2 = 3#2)) ∨
    (¬ (op = 0x0#4 ∨ op = 0x1#4 ∨ op = 0x8#4 ∨ op = 0x9#4 ∨ op = 0xA#4) ∧
      (c.extractLsb' 4 2 ≠ 0#2 ∨ c.extractLsb' 8 5 ≠ 0#5))

/-- 60_exceptions.md R94: exactly which operations answer MalformedOperand, and when. -/
def Obligations.MalformedOperandExactlyWhen : Prop :=
  ∀ i (s : State), i.wellFormed = true → (exec i s = .next (s.answered 0#64 2#2) ↔
    (((∃ l, i = .vpn l) ∨ i = .voff) ∧ ¬ CanonicalVa s.a) ∨
    (((∃ l, i = .ppn l) ∨ i = .poff) ∧ s.a >>> 56 ≠ 0#64) ∨
    (i = .attrLeaf ∧ s.a >>> 10 ≠ 0#64) ∨
    (i = .attrNext ∧ (s.a >>> 10 ≠ 0#64 ∨ s.a &&& 0xDE#64 ≠ 0#64)) ∨
    (i = .pteMake ∧ (s.a >>> 56 ≠ 0#64 ∨ s.a &&& 0xFFF#64 ≠ 0#64 ∨ s.b >>> 10 ≠ 0#64)) ∨
    (i = .satpMake ∧ (s.a >>> 56 ≠ 0#64 ∨ s.a &&& 0xFFF#64 ≠ 0#64)))

/-- 60_exceptions.md R95: exactly which operations answer UnsupportedCombination, and when. -/
def Obligations.UnsupportedExactlyWhen : Prop :=
  ∀ i (s : State), exec i s = .next (s.answered 0#64 3#2) ↔
    ∃ p, (i = .permRm p ∨ i = .permAdd p ∨ i = .permTest p) ∧ p.wellFormed = true ∧
      ¬ (p.perm = .write ∧ p.prin = .user ∧ p.cache = false)

/-- 60_exceptions.md R96: one status, the first of the three that applies; and no request is both MalformedOperand
and UnsupportedCombination. The three predicates are those of Reference.lean, read from R93 to R95. -/
def Obligations.OneStatusInPriorityOrder : Prop :=
  (∀ s : State, ∃ v, step s = .next (s.answered v
    (if s.request.malformedCommand then 1#2 else if s.request.malformedOperand then 2#2
     else if s.request.unsupported then 3#2 else 0#2))) ∧
  (∀ q : Request, ¬ (q.malformedOperand = true ∧ q.unsupported = true))

/-- 60_exceptions.md R92: a faulted answer has R = 0, changes nothing else, and is no result. -/
def Obligations.FaultedAnswerHasNoResult : Prop :=
  ∀ s : State, ∃ x, step s = .next { s with response := some x } ∧
    (x.st ≠ 0#2 → x.r = 0#64 ∧ x.result = none) ∧ (x.st = 0#2 → x.result = some x.r)

/-- 60_exceptions.md R91: the four codes, each the code of one status. -/
def Obligations.StatusCodesAreTheTable : Prop :=
  Status.code .ok = 0#2 ∧ Status.code .malformedCommand = 1#2 ∧ Status.code .malformedOperand = 2#2 ∧
  Status.code .unsupportedCombination = 3#2 ∧ (∀ f, Status.ofCode f.code = f) ∧ (∀ c, (Status.ofCode c).code = c)

/-! ### The request as a function -/

/-- 10_state.md R15: the step is a total function of CMD, A and B; the inputs stay as they are. -/
def Obligations.StepIsFunctionOfInputs : Prop :=
  ∃ f : Cmd → Word → Word → Response, ∀ s : State, step s = .next { s with response := some (f s.cmd s.a s.b) }

/-- The machine and the second reading of the spec's tables in Reference.lean answer alike, on every input. -/
def Obligations.StepAgreesWithReference : Prop :=
  ∀ s : State, step s = .next { s with response := some s.request.expected }

/-- 10_state.md R18: PTE.MAKE reads B, and no other operation does. -/
def Obligations.OnlyPteMakeReadsB : Prop :=
  (∀ (s : State) x v, s.cmd.extractLsb' 0 4 ≠ 0xC#4 → step s = .next { s with response := some x } →
    step { s with b := v } = .next { s with b := v, response := some x }) ∧
  (∃ (s : State) (x : Response) (v : Word), s.cmd.extractLsb' 0 4 = 0xC#4 ∧ step s = .next { s with response := some x } ∧
    step { s with b := v } ≠ .next { s with b := v, response := some x })

/-- However many requests, from whomever, each has the response it has alone, which is the one the second reading of the
spec expects; and a response of an earlier request that still stands on the outputs changes nothing (60_exceptions.md,
Timers, devices, multiprocessing; 20_memory.md, Memory ordering). Requests at the same time are served in some order here,
log entry 7. -/
def Obligations.EachRequestAnsweredAsIfAlone : Prop :=
  (∀ qs s, serveAll qs s = qs.map fun q => some q.expected) ∧
  (∀ q (s : State), pac q = some q.expected ∧
    step { s with cmd := q.cmd, a := q.a, b := q.b } =
      .next { cmd := q.cmd, a := q.a, b := q.b, response := some q.expected })

/-- Requests commute (20_memory.md, Memory ordering): in any order, the same responses. -/
def Obligations.RequestsCommute : Prop :=
  ∀ q q' s x x', serveAll [q, q'] s = [x, x'] → serveAll [q', q] s = [x', x] ∧ x ≠ none ∧ x' ≠ none

/-- A request is idempotent (20_memory.md, Loads, stores and access widths). -/
def Obligations.RepeatedRequestChangesNothing : Prop :=
  ∀ (s : State) t, step s = .next t → step t = .next t

/-- What an instruction leaves unchanged: all 16 instructions write R and ST and nothing else (20_memory.md, Loads,
stores and access widths). -/
def Obligations.InstructionsWriteOnlyTheResponse : Prop :=
  ∀ i (s : State), ∃ x, exec i s = .next { s with response := some x }

/-- Every step leaves the outputs coherent with the inputs, and the inputs as they were: afterwards R and ST stand, and
they are those of the request on the inputs. -/
def Obligations.StepKeepsCoherent : Prop :=
  ∀ (s : State) t, Coherent s → step s = .next t →
    Coherent t ∧ FaultIsBare t ∧ SameInputs s t ∧ t.response = some t.request.expected

/-- The invariant holds right after reset. -/
def Obligations.ResetIsCoherent : Prop :=
  Coherent State.reset ∧ FaultIsBare State.reset ∧ State.reset.response = none

/-- 70_reset_and_hazards.md R106: no reset, and nothing before it, changes how a request is answered. -/
def Obligations.FirstRequestAnsweredLikeAnyOther : Prop :=
  ∀ (q : Request) (s : State), ∃ x : Response, serve q State.reset = .next (State.reset.present q |>.answered x.r x.st) ∧
    serve q s = .next (s.present q |>.answered x.r x.st)

/-! ### Constants and bounds -/

/-- The flag positions and masks of 00_scope.md R8 (the positions are the spec's own decision D8), and the two presets of
R9, which the spec derives from R8 and the source. -/
def Obligations.FlagPositionsAreTheTable : Prop :=
  PTE_V = 1#64 <<< 0 ∧ PTE_R = 1#64 <<< 1 ∧ PTE_W = 1#64 <<< 2 ∧ PTE_X = 1#64 <<< 3 ∧ PTE_U = 1#64 <<< 4 ∧
  PTE_G = 1#64 <<< 5 ∧ PTE_A = 1#64 <<< 6 ∧ PTE_D = 1#64 <<< 7 ∧ PTE_RSW = 3#64 <<< 8 ∧
  PTE_PPN = 0xFFFFFFFFFFF#64 <<< 10 ∧ PTE_RESERVED = 0x3FF#64 <<< 54 ∧
  PTE_XWR_MASK = 0x00E#64 ∧ FLAG_MASK = 0x3FF#64 ∧
  FLAG_MASK = PTE_V ||| PTE_R ||| PTE_W ||| PTE_X ||| PTE_U ||| PTE_G ||| PTE_A ||| PTE_D ||| PTE_RSW ∧
  FLAG_MASK ||| PTE_PPN ||| PTE_RESERVED = BitVec.allOnes 64 ∧
  PAGE_DEFAULT_ATTR_LEAF = 0x03F#64 ∧ PAGE_DEFAULT_ATTR_NEXT = 0x021#64

/-- 00_scope.md R13: both forms of the canonical condition, and the condition on physical addresses. -/
def Obligations.CanonicalIsSignExtension : Prop :=
  ∀ v : Word, (canonicalVa v = true ↔ CanonicalVa v) ∧
    (CanonicalVa v ↔ (v.setWidth 39).signExtend 64 = v) ∧
    (canonicalVa v = true ↔ ∀ i, 39 ≤ i → i < 64 → v.getLsbD i = v.getLsbD 38) ∧
    (validPa v = true ↔ ValidPa v)

/-- Results stay in their fields (the corner cases of 40_layout_codec.md and 42_translation_control.md, Field
extraction and SATP value; 10_state.md, Ports: a predicate answers 0 or 1). -/
def Obligations.ResultsStayInTheirFields : Prop :=
  ∀ i s t x, exec i s = .next t → t.response = some x →
    ((∃ l, i = .vpn l) → x.r.toNat < 0x200) ∧
    (i = .ppn .l0 ∨ i = .ppn .l1 → x.r.toNat < 0x200) ∧ (i = .ppn .l2 → x.r.toNat < 0x4000000) ∧
    (i = .voff ∨ i = .poff → x.r.toNat < 0x1000) ∧ (i = .attrLeaf ∨ i = .attrNext → x.r.toNat < 0x400) ∧
    (i = .isLeaf ∨ i = .isPresent ∨ (∃ p, i = .permTest p) → x.r = 0#64 ∨ x.r = 1#64) ∧
    (i = .pteMake → x.r.toNat < 2 ^ 54) ∧ (i = .ptePa → x.r.toNat < 2 ^ 56 ∧ x.r.toNat % 2 ^ 12 = 0)

/-! ### Laws of the layout codec -/

/-- Leaf-ness is IS.LEAF of the word: every word ATTR.LEAF composes is a leaf, every word ATTR.NEXT composes is not
(40_layout_codec.md, Laws of this family). -/
def Obligations.CompositionFixesLeafness : Prop :=
  (∀ (s : State) v, exec .attrLeaf s = .next (s.answered v 0#2) →
    exec .isLeaf { s with a := v } = .next ({ s with a := v }.answered 1#64 0#2)) ∧
  (∀ (s : State) v, exec .attrNext s = .next (s.answered v 0#2) →
    exec .isLeaf { s with a := v } = .next ({ s with a := v }.answered 0#64 0#2))

/-- PTE.MAKE keeps the flags and the address (40_layout_codec.md, Laws of this family). -/
def Obligations.PteMakeKeepsFlagsAndAddress : Prop :=
  ∀ (s : State) e, exec .pteMake s = .next (s.answered e 0#2) →
    e &&& 0x3FF#64 = s.b ∧
    exec .ptePa { s with a := e } = .next ({ s with a := e }.answered s.a 0#2) ∧
    (∀ v, exec .isLeaf { s with a := e } = .next ({ s with a := e }.answered v 0#2) ↔
      exec .isLeaf { s with a := s.b } = .next ({ s with a := s.b }.answered v 0#2)) ∧
    (∀ v, exec .isPresent { s with a := e } = .next ({ s with a := e }.answered v 0#2) ↔
      exec .isPresent { s with a := s.b } = .next ({ s with a := s.b }.answered v 0#2))

/-- 40_layout_codec.md R72: bits 63:54 of an entry neither fault nor matter (decision D27). -/
def Obligations.ReservedEntryBitsIgnored : Prop :=
  ∀ i s e, i = .isLeaf ∨ i = .isPresent ∨ i = .ptePa →
    (∀ k, k < 54 → e.getLsbD k = s.a.getLsbD k) →
    ∃ v, exec i s = .next (s.answered v 0#2) ∧ exec i { s with a := e } = .next ({ s with a := e }.answered v 0#2)

/-- The fields of 40_layout_codec.md R59: an entry holds each PPN field of the address it was made from, at the
positions the table gives (the positions are from general knowledge, decision D15). -/
def Obligations.EntryHoldsPpnFields : Prop :=
  ∀ (s : State) e, exec .pteMake s = .next (s.answered e 0#2) →
    e.extractLsb' 10 9 = s.a.extractLsb' 12 9 ∧ e.extractLsb' 19 9 = s.a.extractLsb' 21 9 ∧
    e.extractLsb' 28 26 = s.a.extractLsb' 30 26 ∧ e.extractLsb' 54 10 = 0#10

/-! ### Laws of the permission algebra -/

/-- 41_permission_algebra.md R73: write.user alone has a mask, PTE_W; 12 prots are well formed, 11 of them
unsupported (decisions D9, D10). -/
def Obligations.OnlyWriteUserHasMask : Prop :=
  (∀ p, p.wellFormed = true → permMask p = if p = writeUser then some 0x004#64 else none) ∧
  (∃ ps : List Prot, ps.Nodup ∧ ps.length = 12 ∧ (∀ p, p ∈ ps ↔ p.wellFormed = true) ∧
    (ps.filter fun p => (permMask p).isNone).length = 11)

/-- PERM.RM and PERM.ADD leave every bit outside the mask alone (41_permission_algebra.md, Laws of this family). -/
def Obligations.PermLeavesOtherBits : Prop :=
  ∀ i p s v m, i = .permRm p ∨ i = .permAdd p → permMask p = some m →
    exec i s = .next (s.answered v 0#2) → ∀ k, m.getLsbD k = false → v.getLsbD k = s.a.getLsbD k

/-- PERM.RM and PERM.ADD are idempotent (41_permission_algebra.md, Laws of this family). -/
def Obligations.PermRmAndAddIdempotent : Prop :=
  ∀ i p s v, i = .permRm p ∨ i = .permAdd p → exec i s = .next (s.answered v 0#2) →
    exec i { s with a := v } = .next ({ s with a := v }.answered v 0#2)

/-- PERM.TEST agrees with PERM.RM and PERM.ADD, and add then remove gives back A exactly when the permission was
absent (41_permission_algebra.md, Laws of this family; 90_conflicts.md C2). -/
def Obligations.PermTestAgreesWithRmAndAdd : Prop :=
  ∀ p s rm add again, exec (.permRm p) s = .next (s.answered rm 0#2) → exec (.permAdd p) s = .next (s.answered add 0#2) →
    exec (.permRm p) { s with a := add } = .next ({ s with a := add }.answered again 0#2) →
    exec (.permTest p) { s with a := rm } = .next ({ s with a := rm }.answered 0#64 0#2) ∧
    exec (.permTest p) { s with a := add } = .next ({ s with a := add }.answered 1#64 0#2) ∧
    again = rm ∧ (again = s.a ↔ exec (.permTest p) s = .next (s.answered 0#64 0#2))

/-- 41_permission_algebra.md R82: the leaf classification is not protected, and nothing faults (decision D28). -/
def Obligations.PermMayChangeLeafness : Prop :=
  (∀ s : State, s.a &&& 0xE#64 = 0#64 → ∃ v, exec (.permAdd writeUser) s = .next (s.answered v 0#2) ∧
    v &&& 0xE#64 = 4#64 ∧ exec .isLeaf { s with a := v } = .next ({ s with a := v }.answered 1#64 0#2)) ∧
  (∀ s : State, s.a &&& 0xE#64 = 4#64 → ∃ v, exec (.permRm writeUser) s = .next (s.answered v 0#2) ∧
    exec .isLeaf { s with a := v } = .next ({ s with a := v }.answered 0#64 0#2))

/-- 41_permission_algebra.md R83: every A is accepted, whole entries too, and the bits above the flags are copied
(decision D27). -/
def Obligations.PermAcceptsWholeEntries : Prop :=
  ∀ s : State, ∃ rm add t, exec (.permRm writeUser) s = .next (s.answered rm 0#2) ∧
    exec (.permAdd writeUser) s = .next (s.answered add 0#2) ∧
    exec (.permTest writeUser) s = .next (s.answered t 0#2) ∧
    rm >>> 10 = s.a >>> 10 ∧ add >>> 10 = s.a >>> 10

/-- 42_translation_control.md R86: the fields of every SATP value the codec makes; MODE is never another (R87)
(the ASID and PPN positions are the spec's own decision D16). -/
def Obligations.SatpValueFields : Prop :=
  ∀ (s : State) v, exec .satpMake s = .next (s.answered v 0#2) →
    v.extractLsb' 60 4 = 8#4 ∧ v.extractLsb' 44 16 = 0#16 ∧ v.extractLsb' 0 44 = s.a.extractLsb' 12 44

/-! ### The host's notation and contract -/

/-- 30_encoding.md R55: no text assembles to a command that is MalformedCommand. -/
def Obligations.AssemblerMakesNoMalformedCommand : Prop :=
  ∀ line i s, assemble line = some i → s.cmd = encode i.instr →
    ∃ v st, step s = .next (s.answered v st) ∧ st ≠ 1#2

/-- The two pseudo-instructions and their results (30_encoding.md, Assembler syntax and pseudo-instructions). -/
def Obligations.PseudoInstructionsAreThePresets : Prop :=
  assemble "attr.leaf.default" = assemble "attr.leaf 0" ∧ assemble "attr.next.default" = assemble "attr.next 0" ∧
  (assemble "attr.leaf.default").map (fun i => (i.toRequest []).toOption.bind pac) = some (some { r := 0x3F#64, st := 0#2 }) ∧
  (assemble "attr.next.default").map (fun i => (i.toRequest []).toOption.bind pac) = some (some { r := 0x21#64, st := 0#2 })

/-- 30_encoding.md R57: a request line writes its temporary when ST is 0, and otherwise the host's program stops at
once with the fault. That the temporaries are then as they were is log entry 11. -/
def Obligations.HostProgramStopsAtFirstFault : Prop :=
  ∀ p t i q, p.lines[p.pos]? = some (.assign t i) → i.toRequest p.temps = .ok q →
    (q.expected.st = 0#2 → ∃ p', progStep p = .running p' ∧ p'.lines = p.lines ∧ p'.pos = p.pos + 1 ∧
      Table.read t p'.temps = some q.expected.r ∧ ∀ n, n ≠ t → Table.read n p'.temps = Table.read n p.temps) ∧
    (q.expected.st ≠ 0#2 → progStep p = .ended (.fault q.expected.status) p.temps)

/-- The control lines of 30_encoding.md R57: where each takes the program. A label stands at one place here; what a
second label of one name does is the model's choice, log entry 16. -/
def Obligations.HostControlLinesMoveTheProgram : Prop :=
  (∀ p l, p.lines[p.pos]? = some (.label l) → progStep p = .running { p with pos := p.pos + 1 }) ∧
  (∀ p l k, p.lines[p.pos]? = some (.goto l) → (∀ j, p.lines[j]? = some (.label l) ↔ j = k) →
    progStep p = .running { p with pos := k }) ∧
  (∀ p t v l k, p.lines[p.pos]? = some (.ifGoto t v l) → (∀ j, p.lines[j]? = some (.label l) ↔ j = k) →
    Table.read t p.temps = some v → progStep p = .running { p with pos := k }) ∧
  (∀ p t v l w, p.lines[p.pos]? = some (.ifGoto t v l) → Table.read t p.temps = some w → w ≠ v →
    progStep p = .running { p with pos := p.pos + 1 })

/-- The two ways a program of the host's notation ends (70_reset_and_hazards.md R113): a halt line ends it with outcome ok
and its temporaries as the final state, and it ends otherwise only at a response with ST other than 0, with that fault;
no line of it is left without a response. That a faulted program keeps the temporaries it had is log entry 11. -/
def Obligations.HostProgramEndsInTwoWays : Prop :=
  (∀ p, p.lines[p.pos]? = some .halt → progStep p = .ended .ok p.temps) ∧
  (∀ p o ts, progStep p = .ended o ts → ts = p.temps ∧
    ((p.lines[p.pos]? = some .halt ∧ o = .ok) ∨
     (∃ t i q, p.lines[p.pos]? = some (.assign t i) ∧ i.toRequest p.temps = .ok q ∧
       q.expected.st ≠ 0#2 ∧ o = .fault q.expected.status))) ∧
  (∀ p, progStep p ≠ .stuck .noResponse)

/-- Byte k of an entry stored with the default order is bits 8k+7:8k (20_memory.md R33; the default is decision D17), in
either order the entry reads back, and no other byte changes. The model's choices in it: the order beside the default is
log entry 18; that a store may be misaligned, for which the clauses hold too, is log entry 23; and that addresses have no
upper bound is log entry 14. -/
def Obligations.StoredEntryReadsBack : Prop :=
  (∀ e k addr m, k < 8 →
    Table.read (addr + k) (PageMemory.storeEntry .little addr e m) = some (e.extractLsb' (8 * k) 8)) ∧
  (∀ o e addr m, PageMemory.loadEntry o addr (PageMemory.storeEntry o addr e m) = some e) ∧
  (∀ o e addr m x, x < addr ∨ addr + 8 ≤ x →
    Table.read x (PageMemory.storeEntry o addr e m) = Table.read x m)

/-- What the three translation-control primitives do (42_translation_control.md, Translation-control primitives). An
install writes the value SATP.MAKE gives for the root; translations consult it once it has taken effect, and at once
after a flush or an invalidation; enable and disable decide the accesses to pages marked user-accessible, and no other.
The model's choices in it: that an install is refused unless the root's tables exist, and when a table exists, are log
entry 20 (70_reset_and_hazards.md asks that order of the host); that slots stand at table + 8 * n, 512 of them, on which
the tables and the 4096 bytes rest, is log entry 19; staleness is log entry 13; the form of the parameter that says when
a root takes effect is log entry 22; and what an access is, log entry 24. -/
def Obligations.InstallWritesSatpMakeValue : Prop :=
  (∀ (h : HostParams) (m : Manager) root, let x := (requestOf .satpMake root 0#64).expected
    let built := PageMemory.tablesBuilt h.pteByteOrder LEVELS root m.pageTables
    (x.st = 0#2 → built = true → ∃ m', m.act h (.installRoot root) = .ok m' ∧ m'.satp = x.r ∧
      m'.pageTables = m.pageTables ∧ m'.userAccess = m.userAccess ∧ m'.mayBeStale = !h.rootSwitchFlushesTlb ∧
      (h.rootSwitchFlushesTlb = true → m'.consults h = x.r) ∧
      (∀ n, h.rootTakesEffectAfter = some n → ∃ t, Manager.actAll h (List.replicate n .translate) m' = .ok t ∧
        t.satp = x.r ∧ t.consults h = x.r)) ∧
    (x.st = 0#2 → built = false → m.act h (.installRoot root) = .error .tablesNotBuilt) ∧
    (x.st ≠ 0#2 → m.act h (.installRoot root) = .error (.rootRefused x.status))) ∧
  (∀ h before root after m m', m.pageTables = [] → Manager.actAll h (before ++ .installRoot root :: after) m = .ok m' →
    ∃ addr e, Action.storeEntry addr e ∈ before ∧ root.toNat < addr + 8 ∧ addr < root.toNat + 4096) ∧
  (∀ (h : HostParams) (m : Manager), ∃ m', m.act h .invalidate = .ok m' ∧ m'.satp = m.satp ∧ m'.consults h = m.satp ∧
    m'.mayBeStale = false) ∧
  (∀ (h : HostParams) (m : Manager) leaf,
    (∃ m', m.act h .enableUserAccess = .ok m' ∧ m'.act h (.accessPage leaf) = .ok m' ∧ m' = { m with userAccess := true }) ∧
    (∃ m', m.act h .disableUserAccess = .ok m' ∧ m' = { m with userAccess := false } ∧
      m'.act h (.accessPage leaf) = if leaf.getLsbD 4 then .error .userPageRefused else .ok m'))

/-- The model's choice, log entry 13 (DESIGN CHOICE): a translation that relies on a root is refused before that root is
installed, so that in any run of the host's actions that goes through from a start with no root installed, an install of
a root comes before every translation that relies on it. The spec puts this order on the host and says that the codec
cannot enforce it (70_reset_and_hazards.md, Hazards). -/
def Obligations.InstallComesBeforeTranslation : Prop :=
  ∀ h before root after m m', m.installedRoots = [] →
    Manager.actAll h (before ++ .translateUsing root :: after) m = .ok m' → Action.installRoot root ∈ before
end

