-- ==== Sys2Proof/Laws/Decode.lean ====
section
/-! SUPPORT. The small lemmas of the command word's fields: the codes and the names are inverse, a word is its upper
bits and its OP, a word with no unused bit is made of the fields the operation uses, and no two rows overlap. -/

namespace Sys2Proof

@[simp] theorem Level.ofField_field (l : Level) : Level.ofField l.field = l := by cases l <;> rfl
@[simp] theorem Perm.ofField_field (p : Perm) : Perm.ofField p.field = p := by cases p <;> rfl
@[simp] theorem Prin.ofField_field (p : Prin) : Prin.ofField p.field = p := by cases p <;> rfl
@[simp] theorem Level.field_ofField (f : BitVec 2) : (Level.ofField f).field = f := by revert f; decide
@[simp] theorem Perm.field_ofField (f : BitVec 2) : (Perm.ofField f).field = f := by revert f; decide
@[simp] theorem Prin.field_ofField (f : BitVec 2) : (Prin.ofField f).field = f := by revert f; decide

@[simp] theorem opField_append (rest : BitVec 28) (op : BitVec 4) : opField (rest ++ op) = op := by
  apply BitVec.eq_of_getLsbD_eq
  intro i hi
  rw [opField, BitVec.getLsbD_extractLsb', Nat.zero_add, BitVec.getLsbD_append]
  simp [hi]

@[simp] theorem restField_append (rest : BitVec 28) (op : BitVec 4) : restField (rest ++ op) = rest := by
  ext i hi
  simp only [restField, BitVec.getElem_extractLsb', BitVec.getLsbD_append]
  rw [if_neg (by omega)]
  simp [hi]

/-- A word is its upper 28 bits and its OP. -/
theorem restField_append_opField (c : Cmd) : restField c ++ opField c = c := by
  apply BitVec.eq_of_getLsbD_eq
  intro i hi
  rw [BitVec.getLsbD_append]
  by_cases h : i < 4
  · simp [opField, h]
  · have e : 4 + (i - 4) = i := by omega
    simp only [restField, BitVec.getLsbD_extractLsb', h, if_false, e]
    simp
    omega

/-- OP as a number names OP. -/
theorem opField_of_toNat {c : Cmd} {n : Nat} (h : (opField c).toNat = n) : opField c = BitVec.ofNat 4 n := by
  rw [← h]; simp

/-- In a word with no unused bit, every bit outside OP and USED_MASK is 0. -/
theorem bit_of_not_hasUnusedBits {c : Cmd} (h : hasUnusedBits c = false) (i : Nat)
    (hm : (0xF#32 ||| usedMask (opField c)).getLsbD i = false) : c.getLsbD i = false := by
  by_cases hi : i < 32
  · have h' : c &&& ~~~(0x0000000F#32 ||| usedMask (opField c)) = 0#32 := by simpa [hasUnusedBits] using h
    have := congrArg (fun v => v.getLsbD i) h'
    simp only [BitVec.getLsbD_and, BitVec.getLsbD_not, hm, hi] at this
    simpa using this
  · exact BitVec.getLsbD_of_ge _ _ (by omega)

/-- A legal word of an operation that uses no field is its OP. -/
theorem eq_of_plain {c : Cmd} {n : Nat} (ho : (opField c).toNat = n) (hu : usedMask (BitVec.ofNat 4 n) = 0#32)
    (h : hasUnusedBits c = false) : c = 0#28 ++ BitVec.ofNat 4 n := by
  have hop := opField_of_toNat ho
  rw [← restField_append_opField c, hop]
  congr 1
  ext i hi
  have := bit_of_not_hasUnusedBits h (4 + i) (by rw [hop, hu]; revert i; decide)
  simpa [restField] using this

/-- A legal word of VPN or PPN is its LEVEL and its OP. -/
theorem eq_of_level {c : Cmd} {n : Nat} (ho : (opField c).toNat = n) (hu : usedMask (BitVec.ofNat 4 n) = 0x30#32)
    (h : hasUnusedBits c = false) : c = (0#26 ++ levelField c) ++ BitVec.ofNat 4 n := by
  have hop := opField_of_toNat ho
  conv => lhs; rw [← restField_append_opField c, hop]
  congr 1
  apply BitVec.eq_of_getLsbD_eq
  intro i hi
  rw [show (0#26 ++ levelField c : BitVec 28).getLsbD i = _ from BitVec.getLsbD_append ..]
  by_cases h2 : i < 2
  · simp [restField, levelField, h2, hi]
  · have := bit_of_not_hasUnusedBits h (4 + i) (by rw [hop, hu]; clear * - h2 hi; revert i; decide)
    simp [restField, h2, this]

/-- A legal word of PERM.* is its prot and its OP. -/
theorem eq_of_prot {c : Cmd} {n : Nat} (ho : (opField c).toNat = n) (hu : usedMask (BitVec.ofNat 4 n) = 0x1F00#32)
    (h : hasUnusedBits c = false) :
    c = (0#19 ++ BitVec.ofBool (cacheField c) ++ prinField c ++ permField c ++ 0#4) ++ BitVec.ofNat 4 n := by
  have hop := opField_of_toNat ho
  conv => lhs; rw [← restField_append_opField c, hop]
  congr 1
  apply BitVec.eq_of_getLsbD_eq
  intro i hi
  rw [show (0#19 ++ BitVec.ofBool (cacheField c) ++ prinField c ++ permField c ++ 0#4 : BitVec 28).getLsbD i = _
    from BitVec.getLsbD_append ..]
  simp only [BitVec.getLsbD_append]
  have hb : ∀ k, k < 28 → (k < 4 ∨ 9 ≤ k) → c.getLsbD (4 + k) = false := fun k h28 hk =>
    bit_of_not_hasUnusedBits h (4 + k) (by rw [hop, hu]; clear * - hk h28; revert k; decide)
  by_cases h1 : i < 4
  · simp [restField, h1, hb i hi (.inl h1)]
  by_cases h2 : i < 6
  · have e : 8 + (i - 4) = 4 + i := by omega
    simp [restField, permField, h1, show i - 4 < 2 by omega, e, hi]
  by_cases h3 : i < 8
  · have e : 10 + (i - 4 - 2) = 4 + i := by omega
    simp [restField, prinField, h1, show ¬ i - 4 < 2 by omega, show i - 4 - 2 < 2 by omega, e, hi]
  by_cases h4 : i < 9
  · obtain rfl : i = 8 := by omega
    simp [restField, cacheField]
  · simp [restField, h1, show ¬ i - 4 < 2 by omega, show ¬ i - 4 - 2 < 2 by omega,
      show ¬ i - 4 - 2 - 2 < 1 by omega, hb i hi (.inr (by omega))]

/-- OP as the number of the word. -/
theorem append_toNat_mod (rest : BitVec 28) (op : BitVec 4) : (rest ++ op).toNat % 16 = op.toNat := by
  rw [BitVec.toNat_append, ← Nat.shiftLeft_add_eq_or_of_lt op.isLt, Nat.shiftLeft_eq]
  have := op.isLt
  omega

/-- Any two rows of the opcode table differ in a bit that both fix: no word lies in two rows. -/
theorem opcodeTable_pairwise_disjoint :
    opcodeTable.Pairwise fun x y => x.matchBits &&& (x.mask &&& y.mask) ≠ y.matchBits &&& (x.mask &&& y.mask) := by
  decide

end Sys2Proof
end

