-- ==== Sys2Proof/Laws/Table.lean ====
section
/-! SUPPORT. Sparse contents: a read after a write to the same number gives the value written, a write leaves every
other number alone, and every operation keeps the canonical form. -/

namespace Sys2Proof.Machine

variable {β : Type}

@[simp] theorem Table.read_write_same (n : Nat) (v : β) (t : Table β) : Table.read n (Table.write n v t) = some v := by
  induction t with
  | nil => simp [Table.write, Table.read]
  | cons x xs ih =>
    obtain ⟨m, w⟩ := x
    simp only [Table.write]
    split
    · simp [Table.read]
    · split
      · simp [Table.read]
      · rw [Table.read, if_neg (by omega)]
        exact ih

theorem Table.read_write_other {n k : Nat} (h : k ≠ n) (v : β) (t : Table β) :
    Table.read k (Table.write n v t) = Table.read k t := by
  induction t with
  | nil => simp [Table.write, Table.read, h.symm]
  | cons x xs ih =>
    obtain ⟨m, w⟩ := x
    simp only [Table.write]
    split
    · rw [Table.read, if_neg (by omega)]
    · split
      · subst m
        simp [Table.read, h.symm]
      · rw [Table.read, Table.read, ih]

/-- The head of a written table is the number written or the old head. -/
theorem Table.wf_write_of_lt {m n : Nat} {w v : β} {t : Table β} (hm : m < n) (ht : Table.wf ((m, w) :: t) = true)
    (ih : Table.wf (Table.write n v t) = true) : Table.wf ((m, w) :: Table.write n v t) = true := by
  cases t with
  | nil => simp [Table.write, Table.wf, hm]
  | cons x xs =>
    obtain ⟨k, u⟩ := x
    simp only [Table.wf, Bool.and_eq_true, decide_eq_true_eq] at ht
    simp only [Table.write] at ih ⊢
    split
    · simp_all [Table.wf]
    · split <;> simp_all [Table.wf]

/-- A write keeps the canonical form. -/
theorem Table.wf_write (n : Nat) (v : β) (t : Table β) (h : Table.wf t = true) :
    Table.wf (Table.write n v t) = true := by
  induction t with
  | nil => rfl
  | cons x xs ih =>
    obtain ⟨m, w⟩ := x
    have hx : Table.wf xs = true := by
      cases xs with
      | nil => rfl
      | cons y ys => simp only [Table.wf, Bool.and_eq_true] at h; exact h.2
    by_cases h1 : n < m
    · simp only [Table.write, if_pos h1, Table.wf, decide_eq_true h1, Bool.true_and]
      exact h
    · by_cases h2 : n = m
      · subst h2
        simp only [Table.write, if_neg h1, if_true]
        cases xs with
        | nil => rfl
        | cons y ys => simpa [Table.wf] using h
      · simp only [Table.write, if_neg h1, if_neg h2]
        exact Table.wf_write_of_lt (by omega) h (ih hx)

/-- What reads is listed. -/
theorem Table.mem_of_read {n : Nat} {v : β} {t : Table β} (h : Table.read n t = some v) : (n, v) ∈ t := by
  induction t with
  | nil => cases h
  | cons x xs ih =>
    obtain ⟨m, w⟩ := x
    simp only [Table.read] at h
    split at h
    · subst_vars; cases h; exact List.mem_cons_self
    · exact List.mem_cons_of_mem _ (ih h)

/-! ### Page-table memory -/

/-- Storing bytes keeps the canonical form. -/
theorem PageMemory.wf_writeBytes (vs : List (BitVec 8)) (addr : Nat) (m : PageMemory) (h : Table.wf m = true) :
    Table.wf (PageMemory.writeBytes addr vs m) = true := by
  induction vs generalizing addr m with
  | nil => exact h
  | cons v vs ih => exact ih _ _ (Table.wf_write _ _ _ h)

/-- Storing an entry keeps the canonical form. -/
theorem PageMemory.wf_storeEntry (o : ByteOrder) (addr : Nat) (e : Word) (m : PageMemory) (h : Table.wf m = true) :
    Table.wf (PageMemory.storeEntry o addr e m) = true :=
  PageMemory.wf_writeBytes _ _ _ h

/-- A byte outside the stored ones is unchanged. -/
theorem PageMemory.read_writeBytes_outside (vs : List (BitVec 8)) {addr k : Nat} (m : PageMemory)
    (h : k < addr ∨ addr + vs.length ≤ k) : Table.read k (PageMemory.writeBytes addr vs m) = Table.read k m := by
  induction vs generalizing addr m with
  | nil => rfl
  | cons v vs ih =>
    simp only [List.length_cons] at h
    rw [PageMemory.writeBytes, ih _ (by omega), Table.read_write_other (by omega)]

/-- A stored byte is the byte stored. -/
theorem PageMemory.read_writeBytes_inside (vs : List (BitVec 8)) (addr k : Nat) (m : PageMemory)
    (h : k < vs.length) : Table.read (addr + k) (PageMemory.writeBytes addr vs m) = some vs[k] := by
  induction vs generalizing addr k m with
  | nil => exact absurd h (by simp)
  | cons v vs ih =>
    rw [PageMemory.writeBytes]
    cases k with
    | zero =>
      rw [PageMemory.read_writeBytes_outside _ _ (by omega)]
      exact Table.read_write_same _ _ _
    | succ k =>
      have := ih (addr + 1) k (Table.write addr v m) (by simpa using h)
      rw [show addr + (k + 1) = addr + 1 + k by omega, this]
      simp

@[simp] theorem entryBytes_length (o : ByteOrder) (e : Word) : (entryBytes o e).length = 8 := by cases o <;> rfl

/-! ### The start states -/

theorem Manager.start_wf (p : HostParams) : Table.wf (Manager.start p).pageTables = true := rfl

theorem ProgState.start_wf (lines : List Line) : Table.wf (ProgState.start lines).temps = true := rfl

end Sys2Proof.Machine
end

