-- ==== Sys2Proof/Laws/Manager.lean ====
section
/-! SUPPORT. What the host's contract can do: which tables exist, what each action can change, and what an install
that goes through has found and left. -/

namespace Sys2Proof.Machine

/-! ### Tables in page-table memory -/

theorem isSlotOf_iff (table : Word) (addr : Nat) :
    isSlotOf table addr = true ↔ ∃ n, n < 512 ∧ addr = table.toNat + 8 * n := by
  have size : 8 * 2 ^ VPN0_BIT = 4096 := rfl
  simp only [isSlotOf, Bool.and_eq_true, decide_eq_true_eq, beq_iff_eq, size]
  constructor
  · intro h
    exact ⟨(addr - table.toNat) / 8, by omega, by omega⟩
  · rintro ⟨n, hn, rfl⟩
    omega

/-- What loads has a listed first byte. -/
theorem PageMemory.listed_of_loadEntry {o : ByteOrder} {addr : Nat} {m : PageMemory} {e : Word}
    (h : PageMemory.loadEntry o addr m = some e) : ∃ v, (addr, v) ∈ m := by
  have hr : ∃ v, Table.read addr m = some v := by
    cases hv : Table.read addr m with
    | none => simp [PageMemory.loadEntry, PageMemory.readBytes, hv] at h
    | some v => exact ⟨v, rfl⟩
  obtain ⟨v, hv⟩ := hr
  exact ⟨v, Table.mem_of_read hv⟩

/-- The entries of a table are those that load from one of its 512 slots. -/
theorem PageMemory.mem_entriesOf {o : ByteOrder} {table e : Word} {m : PageMemory} :
    e ∈ PageMemory.entriesOf o table m ↔ ∃ n, n < 512 ∧ PageMemory.loadEntry o (table.toNat + 8 * n) m = some e := by
  simp only [PageMemory.entriesOf, List.mem_filterMap]
  constructor
  · rintro ⟨⟨addr, v⟩, _, h⟩
    by_cases hs : isSlotOf table addr = true
    · obtain ⟨n, hn, rfl⟩ := (isSlotOf_iff _ _).1 hs
      exact ⟨n, hn, by simpa [hs] using h⟩
    · simp [hs] at h
  · rintro ⟨n, hn, h⟩
    obtain ⟨v, hv⟩ := PageMemory.listed_of_loadEntry h
    exact ⟨_, hv, by simpa [(isSlotOf_iff _ _).2 ⟨n, hn, rfl⟩] using h⟩

/-- One level of tables that exist: an entry is stored in the table, and the tables its pointers name exist. -/
theorem PageMemory.tablesBuilt_succ {o : ByteOrder} {n : Nat} {table : Word} {m : PageMemory} :
    PageMemory.tablesBuilt o (n + 1) table m = true ↔
      PageMemory.entriesOf o table m ≠ [] ∧
      ∀ e next, e ∈ PageMemory.entriesOf o table m → nextTable e = some next →
        PageMemory.tablesBuilt o n next m = true := by
  simp only [PageMemory.tablesBuilt, Bool.and_eq_true, Bool.not_eq_true', List.isEmpty_eq_false_iff, List.all_eq_true]
  refine and_congr_right fun _ => ⟨fun h e next he hn => by simpa [hn] using h e he, fun h e he => ?_⟩
  cases hn : nextTable e with
  | none => rfl
  | some next => exact h e next he hn

/-- A table that exists has an entry in one of its slots. -/
theorem PageMemory.exists_loadEntry_of_tablesBuilt {o : ByteOrder} {n : Nat} {table : Word} {m : PageMemory}
    (h : PageMemory.tablesBuilt o (n + 1) table m = true) :
    ∃ k e, k < 512 ∧ PageMemory.loadEntry o (table.toNat + 8 * k) m = some e := by
  obtain ⟨e, he⟩ := List.exists_mem_of_ne_nil _ (PageMemory.tablesBuilt_succ.1 h).1
  obtain ⟨k, hk, hl⟩ := PageMemory.mem_entriesOf.1 he
  exact ⟨k, e, hk, hl⟩

/-- In empty memory no table exists. -/
theorem PageMemory.tablesBuilt_nil (o : ByteOrder) (n : Nat) (table : Word) :
    PageMemory.tablesBuilt o (n + 1) table [] = false := rfl

/-! ### Actions -/

/-- A request changes the codec's ports alone. -/
theorem Manager.ask_frame {m m' : Manager} {q : Request} {x : Response} (h : m.ask q = .ok (m', x)) :
    m' = { m with codec := m'.codec } := by
  unfold Manager.ask at h
  split at h
  · split at h
    · cases h; rfl
    · cases h
  · rename_i r _
    exact nomatch r
  · cases h

/-- What an install that goes through found and left: the root's tables, and the root set. -/
theorem Manager.installRoot_ok {p : HostParams} {root : Word} {m m' : Manager} (h : m.installRoot p root = .ok m') :
    PageMemory.tablesBuilt p.pteByteOrder LEVELS root m.pageTables = true ∧
      ∃ s v, m' = Manager.setRoot p root v { m with codec := s } := by
  unfold Manager.installRoot at h
  split at h
  · cases h
  · rename_i m₁ x hm
    split at h
    · rename_i v hv
      split at h
      · rename_i ht
        cases h
        exact ⟨ht, m₁.codec, v, by rw [← Manager.ask_frame hm]⟩
      · cases h
    · cases h

section
variable (p : HostParams) (root v : Word) (m : Manager)

@[simp] theorem Manager.flush_codec : m.flush.codec = m.codec := rfl
@[simp] theorem Manager.flush_pageTables : m.flush.pageTables = m.pageTables := rfl
@[simp] theorem Manager.flush_satp : m.flush.satp = m.satp := rfl
@[simp] theorem Manager.flush_installedRoots : m.flush.installedRoots = m.installedRoots := rfl
@[simp] theorem Manager.flush_rootInUse : m.flush.rootInUse = m.satp := rfl
@[simp] theorem Manager.flush_userAccess : m.flush.userAccess = m.userAccess := rfl
@[simp] theorem Manager.flush_mayBeStale : m.flush.mayBeStale = false := rfl

@[simp] theorem Manager.setRoot_codec : (m.setRoot p root v).codec = m.codec := by unfold Manager.setRoot; split <;> rfl
@[simp] theorem Manager.setRoot_pageTables : (m.setRoot p root v).pageTables = m.pageTables := by
  unfold Manager.setRoot; split <;> rfl
@[simp] theorem Manager.setRoot_satp : (m.setRoot p root v).satp = v := by unfold Manager.setRoot; split <;> rfl
@[simp] theorem Manager.setRoot_installedRoots : (m.setRoot p root v).installedRoots = root :: m.installedRoots := by
  unfold Manager.setRoot; split <;> rfl
@[simp] theorem Manager.setRoot_sinceInstall : (m.setRoot p root v).sinceInstall = 0 := by
  unfold Manager.setRoot; split <;> rfl
@[simp] theorem Manager.setRoot_userAccess : (m.setRoot p root v).userAccess = m.userAccess := by
  unfold Manager.setRoot; split <;> rfl
@[simp] theorem Manager.setRoot_mayBeStale : (m.setRoot p root v).mayBeStale = !p.rootSwitchFlushesTlb := by
  unfold Manager.setRoot; split <;> simp_all

@[simp] theorem Manager.translate_satp : (m.translate p).satp = m.satp := rfl
@[simp] theorem Manager.translate_pageTables : (m.translate p).pageTables = m.pageTables := rfl
@[simp] theorem Manager.translate_installedRoots : (m.translate p).installedRoots = m.installedRoots := rfl
@[simp] theorem Manager.translate_rootInUse : (m.translate p).rootInUse = m.consults p := rfl
@[simp] theorem Manager.translate_sinceInstall : (m.translate p).sinceInstall = m.sinceInstall + 1 := rfl
end

/-- What a translation consults is the value in SATP or the one in use before it. -/
theorem Manager.consults_cases (p : HostParams) (m : Manager) : m.consults p = m.satp ∨ m.consults p = m.rootInUse := by
  unfold Manager.consults
  split
  · split
    · exact .inl rfl
    · exact .inr rfl
  · exact .inr rfl

/-- After an invalidation translations consult SATP. -/
@[simp] theorem Manager.consults_flush (p : HostParams) (m : Manager) : m.flush.consults p = m.satp :=
  (Manager.consults_cases p m.flush).elim id id

/-- What one action that goes through can do to page-table memory and to the roots installed: a store adds an entry, an
install of a root whose tables exist adds the root, and every other action leaves both. -/
theorem Manager.act_ok {p : HostParams} {m m' : Manager} {x : Action} (h : m.act p x = .ok m') :
    (m'.pageTables = m.pageTables ∧ m'.installedRoots = m.installedRoots) ∨
    (∃ addr e, x = .storeEntry addr e ∧ m'.pageTables = m.pageTables.storeEntry p.pteByteOrder addr e ∧
      m'.installedRoots = m.installedRoots) ∨
    (∃ root, x = .installRoot root ∧ PageMemory.tablesBuilt p.pteByteOrder LEVELS root m.pageTables = true ∧
      m'.pageTables = m.pageTables ∧ m'.installedRoots = root :: m.installedRoots) := by
  cases x with
  | request q =>
    simp only [Manager.act] at h
    cases ha : m.ask q with
    | error e => simp [ha, Except.map] at h
    | ok r =>
      obtain ⟨m₁, x⟩ := r
      simp only [ha, Except.map, Except.ok.injEq] at h
      subst h
      exact .inl (by rw [Manager.ask_frame ha]; exact ⟨rfl, rfl⟩)
  | storeEntry addr e => cases h; exact .inr (.inl ⟨addr, e, rfl, rfl, rfl⟩)
  | installRoot root =>
    obtain ⟨ht, s, v, rfl⟩ := Manager.installRoot_ok (show m.installRoot p root = .ok m' from h)
    exact .inr (.inr ⟨root, rfl, ht, by simp, by simp⟩)
  | enableUserAccess => cases h; exact .inl ⟨rfl, rfl⟩
  | disableUserAccess => cases h; exact .inl ⟨rfl, rfl⟩
  | invalidate => cases h; exact .inl ⟨rfl, rfl⟩
  | translate => cases h; exact .inl ⟨rfl, rfl⟩
  | translateUsing root =>
    simp only [Manager.act] at h
    split at h
    · cases h; exact .inl ⟨rfl, rfl⟩
    · cases h
  | accessPage leaf =>
    simp only [Manager.act] at h
    split at h
    · cases h; exact .inl ⟨rfl, rfl⟩
    · cases h

/-- A run of actions is a run of its first part and then of the rest. -/
theorem Manager.actAll_append {p : HostParams} {xs ys : List Action} {m m' : Manager}
    (h : Manager.actAll p (xs ++ ys) m = .ok m') :
    ∃ m₁, Manager.actAll p xs m = .ok m₁ ∧ Manager.actAll p ys m₁ = .ok m' := by
  induction xs generalizing m with
  | nil => exact ⟨m, rfl, h⟩
  | cons x xs ih =>
    simp only [List.cons_append, Manager.actAll] at h ⊢
    split at h
    · exact ih h
    · cases h

end Sys2Proof.Machine
end

