-- ==== Sys2Proof/Laws/Operands.lean ====
section
/-! SUPPORT. The operand reads as shifts, masks and numbers, once for all proofs. -/

namespace Sys2Proof.Machine

theorem ushiftRight_toNat (v : Word) (k : Nat) : (v >>> k).toNat = v.toNat / 2 ^ k := by
  simp [Nat.shiftRight_eq_div_pow]

theorem extractLsb'_toNat (v : Word) (lo len : Nat) : (v.extractLsb' lo len).toNat = v.toNat / 2 ^ lo % 2 ^ len := by
  simp [Nat.shiftRight_eq_div_pow]

/-- A mask of low bits keeps them. -/
theorem and_lowMask (v : Word) (n : Nat) : v &&& BitVec.ofNat 64 (2 ^ n - 1) = (v.extractLsb' 0 n).setWidth 64 := by
  apply BitVec.eq_of_getLsbD_eq
  intro i hi
  simp only [BitVec.getLsbD_and, BitVec.getLsbD_ofNat, Nat.testBit_two_pow_sub_one, BitVec.getLsbD_setWidth,
    BitVec.getLsbD_extractLsb', Nat.zero_add, hi, decide_true, Bool.true_and]
  rw [Bool.and_comm]

theorem and_lowMask_toNat (v : Word) (n : Nat) (h : n ≤ 64) :
    (v &&& BitVec.ofNat 64 (2 ^ n - 1)).toNat = v.toNat % 2 ^ n := by
  rw [and_lowMask]
  simp
  exact lt_of_lt_of_le (Nat.mod_lt _ (by positivity)) (Nat.pow_le_pow_right (by omega) h)

/-- A bit field is a shift and a mask, as the spec's pseudocode writes it. -/
theorem bitField_eq (lo len : Nat) (v : Word) : bitField lo len v = (v >>> lo) &&& BitVec.ofNat 64 (2 ^ len - 1) := by
  rw [and_lowMask]
  apply BitVec.eq_of_getLsbD_eq
  intro i hi
  simp [bitField]

theorem pageOffset_eq (v : Word) : pageOffset v = v &&& 0xFFF#64 := by
  rw [pageOffset, PAGE_OFFSET_BIT, PAGE_OFFSET_SHIFT, bitField_eq]
  simp

theorem flagsOnly_iff (v : Word) : flagsOnly v = true ↔ v >>> 10 = 0#64 := by
  simp only [flagsOnly, beq_iff_eq, ← BitVec.toNat_inj, extractLsb'_toNat, ushiftRight_toNat]
  have := v.isLt
  simp
  omega

theorem pageAligned_iff (v : Word) : pageAligned v = true ↔ v &&& 0xFFF#64 = 0#64 := by
  rw [show (0xFFF#64) = BitVec.ofNat 64 (2 ^ 12 - 1) from rfl, and_lowMask]
  simp only [pageAligned, beq_iff_eq, ← BitVec.toNat_inj]
  have := (v.extractLsb' 0 12).isLt
  simp [Nat.shiftRight_eq_div_pow]
  omega

/-- A value with no bit in the low k bits of another: OR is addition. -/
theorem shiftLeft_or_toNat (x y : Word) (k : Nat) (hk : k < 64) (hy : y.toNat < 2 ^ k) (hx : x.toNat < 2 ^ (64 - k)) :
    ((x <<< k) ||| y).toNat = x.toNat * 2 ^ k + y.toNat := by
  rw [BitVec.toNat_or, BitVec.toNat_shiftLeft, Nat.mod_eq_of_lt, ← Nat.shiftLeft_add_eq_or_of_lt hy,
    Nat.shiftLeft_eq]
  rw [Nat.shiftLeft_eq]
  calc x.toNat * 2 ^ k < 2 ^ (64 - k) * 2 ^ k := by apply Nat.mul_lt_mul_of_pos_right hx; positivity
    _ = 2 ^ 64 := by rw [← pow_add]; congr 1; omega

end Sys2Proof.Machine
end

