-- ==== Sys2Proof/Laws/State.lean ====
section
/-! SUPPORT. One lemma per field per update of the codec's ports, so that no proof unfolds a record update. -/

namespace Sys2Proof.Machine

variable (s : State) (q : Request) (v : Word) (st : BitVec 2) (n w : Nat)

@[simp] theorem State.respond_cmd : (s.respond v st).cmd = s.cmd := rfl
@[simp] theorem State.respond_a : (s.respond v st).a = s.a := rfl
@[simp] theorem State.respond_b : (s.respond v st).b = s.b := rfl
@[simp] theorem State.respond_response : (s.respond v st).response = some { r := v, st := st } := rfl
@[simp] theorem State.respond_request : (s.respond v st).request = s.request := rfl
@[simp] theorem State.respond_respond (v' : Word) (st' : BitVec 2) :
    (s.respond v st).respond v' st' = s.respond v' st' := rfl

@[simp] theorem State.answered_cmd : (s.answered v st).cmd = s.cmd := rfl
@[simp] theorem State.answered_a : (s.answered v st).a = s.a := rfl
@[simp] theorem State.answered_b : (s.answered v st).b = s.b := rfl
@[simp] theorem State.answered_response : (s.answered v st).response = some { r := v, st := st } := rfl

/-- The statements' word for an answered state and the machine's operation are one. -/
theorem State.respond_eq_answered : s.respond v st = s.answered v st := rfl

/-- One state answered in two ways is one answer. -/
@[simp] theorem State.answered_inj {v' : Word} {st' : BitVec 2} :
    s.answered v st = s.answered v' st' ↔ v = v' ∧ st = st' := by
  simp [State.answered]

@[simp] theorem State.present_cmd : (s.present q).cmd = q.cmd := rfl
@[simp] theorem State.present_a : (s.present q).a = q.a := rfl
@[simp] theorem State.present_b : (s.present q).b = q.b := rfl
@[simp] theorem State.present_response : (s.present q).response = none := rfl
@[simp] theorem State.present_request : (s.present q).request = q := rfl

/-- Presenting a request forgets what stood on the ports. -/
theorem State.present_eq (t : State) : s.present q = t.present q := rfl

@[simp] theorem State.request_cmd : s.request.cmd = s.cmd := rfl
@[simp] theorem State.request_a : s.request.a = s.a := rfl
@[simp] theorem State.request_b : s.request.b = s.b := rfl

@[simp] theorem State.withFetchWord_cmd : (s.withFetchWord n w).cmd = BitVec.ofNat 32 (w % 2 ^ n) := rfl
@[simp] theorem State.withFetchWord_a : (s.withFetchWord n w).a = s.a := rfl
@[simp] theorem State.withFetchWord_b : (s.withFetchWord n w).b = s.b := rfl
@[simp] theorem State.withFetchWord_response : (s.withFetchWord n w).response = s.response := rfl

@[simp] theorem State.reset_response : State.reset.response = none := rfl

end Sys2Proof.Machine
end

