-- ==== Sys2Proof/Laws/Ops.lean ====
section
/-! SUPPORT. For each shared operation, once, everything it can do: every meaning is one of these. -/

namespace Sys2Proof.Machine

theorem complete_eq (v : Word) (s : State) : complete v s = .next (s.answered v 0#2) := rfl

theorem raise_eq (f : Status) (s : State) : raise f s = .next (s.answered 0#64 f.code) := rfl

theorem reject_eq (e : DecodeError) (s : State) : reject e s = .next (s.answered 0#64 1#2) := rfl

theorem checkOperands_true (v : Word) (s : State) : checkOperands true v s = .next (s.answered v 0#2) := rfl

theorem checkOperands_false (v : Word) (s : State) : checkOperands false v s = .next (s.answered 0#64 2#2) := rfl

/-- A checked operation completes, or it is MalformedOperand. -/
theorem checkOperands_cases (c : Bool) (v : Word) (s : State) :
    (c = true ∧ checkOperands c v s = .next (s.answered v 0#2)) ∨
    (c = false ∧ checkOperands c v s = .next (s.answered 0#64 2#2)) := by
  cases c
  · exact .inr ⟨rfl, rfl⟩
  · exact .inl ⟨rfl, rfl⟩

theorem withField_none (s : State) (k : Nat → Nat → Outcome) :
    withField none s k = .next (s.answered 0#64 1#2) := rfl

theorem withField_some (lo len : Nat) (s : State) (k : Nat → Nat → Outcome) :
    withField (some (lo, len)) s k = k lo len := rfl

/-- write.user has the mask PTE_W, and no other prot has a mask. -/
theorem permMask_writeUser : permMask writeUser = some 4#64 := rfl

theorem permMask_of_ne {p : Prot} (h : p ≠ writeUser) : permMask p = none := by
  obtain ⟨perm, prin, cache⟩ := p
  cases perm <;> cases prin <;> cases cache <;> first | rfl | exact absurd rfl h

/-- A permission operation completes for write.user, is UnsupportedCombination for any other well-formed prot, and
MalformedCommand for an ill-formed one. -/
theorem withMask_cases (p : Prot) (f : Word → Word) (s : State) :
    (p = writeUser ∧ withMask p f s = .next (s.answered (f 4#64) 0#2)) ∨
    (p.wellFormed = true ∧ p ≠ writeUser ∧ withMask p f s = .next (s.answered 0#64 3#2)) ∨
    (p.wellFormed = false ∧ withMask p f s = .next (s.answered 0#64 1#2)) := by
  by_cases h : p = writeUser
  · subst h
    exact .inl ⟨rfl, rfl⟩
  · cases hw : p.wellFormed
    · refine .inr (.inr ⟨rfl, ?_⟩)
      simp only [withMask, hw]
      rfl
    · refine .inr (.inl ⟨rfl, h, ?_⟩)
      simp only [withMask, hw, permMask_of_ne h]
      rfl

/-- Two answers of one state are the same answer. -/
theorem next_answered_inj {s : State} {v w : Word} {x y : BitVec 2}
    (h : (Host.Outcome.next (s.answered v x) : Outcome) = .next (s.answered w y)) : v = w ∧ x = y := by
  injection h with h
  exact (State.answered_inj s v x).1 h

@[simp] theorem responseOf_next (s : State) : responseOf (.next s) = s.response := rfl

/-- The code of a status and the status of a code. -/
@[simp] theorem Status.ofCode_eq_ok (c : BitVec 2) : Status.ofCode c = .ok ↔ c = 0#2 := by revert c; decide

/-- A response is a result exactly when ST is 0. -/
theorem Response.result_of_ok {x : Response} (h : x.st = 0#2) : x.result = some x.r := by
  simp [Response.result, Response.status, h]

theorem Response.result_of_fault {x : Response} (h : x.st ≠ 0#2) : x.result = none := by
  simp [Response.result, Response.status, h]

end Sys2Proof.Machine
end

