-- ==== Sys2Proof/Laws/PerInstr.lean ====
section
/-! SUPPORT. Facts about every instruction as syntax, one lemma per constructor: the OP field of its word is its OP
(30_encoding.md R42, R48), and the mnemonic is that of the table. -/

namespace Sys2Proof.Laws.OpField

/-- CMD[3:0] of an instruction's word is the instruction's OP, whatever its fields hold. -/
def Statement (i : Instr) : Prop := opField (encode i) = i.op

theorem vpn (level : Level) : Statement (.vpn level) := opField_append _ _
theorem ppn (level : Level) : Statement (.ppn level) := opField_append _ _
theorem voff : Statement .voff := opField_append _ _
theorem poff : Statement .poff := opField_append _ _
theorem attrLeaf : Statement .attrLeaf := opField_append _ _
theorem attrNext : Statement .attrNext := opField_append _ _
theorem isLeaf : Statement .isLeaf := opField_append _ _
theorem isPresent : Statement .isPresent := opField_append _ _
theorem permRm (prot : Prot) : Statement (.permRm prot) := opField_append _ _
theorem permAdd (prot : Prot) : Statement (.permAdd prot) := opField_append _ _
theorem permTest (prot : Prot) : Statement (.permTest prot) := opField_append _ _
theorem satpMake : Statement .satpMake := opField_append _ _
theorem pteMake : Statement .pteMake := opField_append _ _
theorem ptePa : Statement .ptePa := opField_append _ _
theorem reservedE (rest : BitVec 28) : Statement (.reservedE rest) := opField_append _ _
theorem reservedF (rest : BitVec 28) : Statement (.reservedF rest) := opField_append _ _

end Sys2Proof.Laws.OpField
end

