-- ==== Sys2Proof/Tests/Slice0.lean ====
section
/-! SUPPORT. The model's own tests. Words are written out from 30_encoding.md R41, R45 and R48; expected responses
are those of spec/95_test_vectors.md, section by section; witnesses meet the hypotheses of the statements. -/

namespace Sys2Proof.Machine

/-- The response to one request, as 95_test_vectors.md writes it. -/
def ask (cmd : Cmd) (a b : Word) : Option Response := pac { cmd := cmd, a := a, b := b }

/-- A state with given operands. -/
def operands (a b : Word) : State := { cmd := 0#32, a := a, b := b, response := none }

/-! ### WellFormed refuses each ill-formed term -/

theorem test_wf_refuses_vpn_level3 : (Instr.vpn .reserved).wellFormed = false := by decide
theorem test_wf_refuses_ppn_level3 : (Instr.ppn .reserved).wellFormed = false := by decide
theorem test_wf_refuses_rm_perm3 : (Instr.permRm ⟨.reserved, .user, false⟩).wellFormed = false := by decide
theorem test_wf_refuses_add_prin2 : (Instr.permAdd ⟨.write, .reserved2, false⟩).wellFormed = false := by decide
theorem test_wf_refuses_test_prin3 : (Instr.permTest ⟨.write, .reserved3, true⟩).wellFormed = false := by decide

/-! ### Every constructor's word, bit by bit: 31:13 | 12 | 11:10 | 9:8 | 7:6 | 5:4 | 3:0 -/

theorem test_decode_vpn : decode 0b0000000000000000000_0_00_00_00_10_0000#32 = .ok (.vpn .l2) := by decide
theorem test_decode_ppn : decode 0b0000000000000000000_0_00_00_00_01_0001#32 = .ok (.ppn .l1) := by decide
theorem test_decode_voff : decode 0b0000000000000000000_0_00_00_00_00_0010#32 = .ok .voff := by decide
theorem test_decode_poff : decode 0b0000000000000000000_0_00_00_00_00_0011#32 = .ok .poff := by decide
theorem test_decode_attrLeaf : decode 0b0000000000000000000_0_00_00_00_00_0100#32 = .ok .attrLeaf := by decide
theorem test_decode_attrNext : decode 0b0000000000000000000_0_00_00_00_00_0101#32 = .ok .attrNext := by decide
theorem test_decode_isLeaf : decode 0b0000000000000000000_0_00_00_00_00_0110#32 = .ok .isLeaf := by decide
theorem test_decode_isPresent : decode 0b0000000000000000000_0_00_00_00_00_0111#32 = .ok .isPresent := by decide
theorem test_decode_permRm :
    decode 0b0000000000000000000_0_01_01_00_00_1000#32 = .ok (.permRm ⟨.write, .user, false⟩) := by decide
theorem test_decode_permAdd :
    decode 0b0000000000000000000_1_00_10_00_00_1001#32 = .ok (.permAdd ⟨.execute, .kernel, true⟩) := by decide
theorem test_decode_permTest :
    decode 0b0000000000000000000_0_01_00_00_00_1010#32 = .ok (.permTest ⟨.read, .user, false⟩) := by decide
theorem test_decode_satpMake : decode 0b0000000000000000000_0_00_00_00_00_1011#32 = .ok .satpMake := by decide
theorem test_decode_pteMake : decode 0b0000000000000000000_0_00_00_00_00_1100#32 = .ok .pteMake := by decide
theorem test_decode_ptePa : decode 0b0000000000000000000_0_00_00_00_00_1101#32 = .ok .ptePa := by decide
theorem test_decode_reservedE :
    decode 0b1010000000000000000_0_00_00_11_01_1110#32 = .ok (.reservedE 0xA00000D#28) := by decide
theorem test_decode_reservedF :
    decode 0b0000000000000000000_0_00_00_00_00_1111#32 = .ok (.reservedF 0#28) := by decide

theorem test_decode_rejects_level3 : decode 0x00000030#32 = .error .reservedLevel := by decide
theorem test_decode_rejects_perm3 : decode 0x00000708#32 = .error .reservedProt := by decide
theorem test_decode_rejects_prin2 : decode 0x00000908#32 = .error .reservedProt := by decide
theorem test_decode_rejects_bit31 : decode 0x80000006#32 = .error .unusedBits := by decide
theorem test_decode_rejects_bit6 : decode 0x00000046#32 = .error .unusedBits := by decide
theorem test_decode_rejects_level_of_isLeaf : decode 0x00000016#32 = .error .unusedBits := by decide

theorem test_encode_permRm : encode (.permRm ⟨.write, .user, false⟩) = 0x00000508#32 := by decide
theorem test_encode_permTest_cached : encode (.permTest ⟨.write, .user, true⟩) = 0x0000150A#32 := by decide
theorem test_encode_vpn2 : encode (.vpn .l2) = 0x00000020#32 := by decide

theorem test_table_word : decodeTableWord 32 0x50A = some (.permTest ⟨.write, .user, false⟩) := by decide
theorem test_table_word_refused : decodeTableWord 32 0x30 = none := by decide
theorem test_fetch_word_after_reset :
    responseOf (step (State.reset.withFetchWord 32 0xB)) = some ⟨0x8000000000000000#64, 0#2⟩ := by decide

/-! ### 95_test_vectors.md L1 and L2, at most two for each operation -/

theorem test_vpn_example : ask 0x00000020#32 0x0000003FC0201000#64 0#64 = some ⟨0x0FF#64, 0#2⟩ := by decide
theorem test_vpn_not_canonical : ask 0x00000000#32 0x0000004000000000#64 0#64 = some ⟨0#64, 2#2⟩ := by decide
theorem test_ppn_26_bits : ask 0x00000021#32 0x00FFFFFFFFFFFFFF#64 0#64 = some ⟨0x3FFFFFF#64, 0#2⟩ := by decide
theorem test_ppn_beyond : ask 0x00000001#32 0x0100000000000000#64 0#64 = some ⟨0#64, 2#2⟩ := by decide
theorem test_voff_upper_half : ask 0x00000002#32 0xFFFFFFFFFFFFFABC#64 0#64 = some ⟨0xABC#64, 0#2⟩ := by decide
theorem test_voff_not_canonical : ask 0x00000002#32 0x8000000000000ABC#64 0#64 = some ⟨0#64, 2#2⟩ := by decide
theorem test_poff : ask 0x00000003#32 0x0000000080200ABC#64 0#64 = some ⟨0xABC#64, 0#2⟩ := by decide
theorem test_poff_beyond : ask 0x00000003#32 0xFF00000000000000#64 0#64 = some ⟨0#64, 2#2⟩ := by decide
theorem test_attrLeaf_keeps_a_d : ask 0x00000004#32 0xC0#64 0#64 = some ⟨0xFF#64, 0#2⟩ := by decide
theorem test_attrLeaf_bit10 : ask 0x00000004#32 0x400#64 0#64 = some ⟨0#64, 2#2⟩ := by decide
theorem test_attrNext_keeps_rsw : ask 0x00000005#32 0x300#64 0#64 = some ⟨0x321#64, 0#2⟩ := by decide
theorem test_attrNext_refuses_u : ask 0x00000005#32 0x10#64 0#64 = some ⟨0#64, 2#2⟩ := by decide
theorem test_isLeaf_w_alone : ask 0x00000006#32 0x4#64 0#64 = some ⟨1#64, 0#2⟩ := by decide
theorem test_isLeaf_all_but_xwr : ask 0x00000006#32 0xFFFFFFFFFFFFFFF1#64 0#64 = some ⟨0#64, 0#2⟩ := by decide
theorem test_isPresent : ask 0x00000007#32 0x1#64 0#64 = some ⟨1#64, 0#2⟩ := by decide
theorem test_isPresent_bit0_only : ask 0x00000007#32 0xFFFFFFFFFFFFFFFE#64 0#64 = some ⟨0#64, 0#2⟩ := by decide
theorem test_permRm_keeps_rest :
    ask 0x00000508#32 0xFFFFFFFFFFFFFFFF#64 0#64 = some ⟨0xFFFFFFFFFFFFFFFB#64, 0#2⟩ := by decide
theorem test_permRm_read_user : ask 0x00000408#32 0x3F#64 0#64 = some ⟨0#64, 3#2⟩ := by decide
theorem test_permAdd : ask 0x00000509#32 0x21#64 0#64 = some ⟨0x25#64, 0#2⟩ := by decide
theorem test_permAdd_write_kernel : ask 0x00000109#32 0x3F#64 0#64 = some ⟨0#64, 3#2⟩ := by decide
theorem test_permTest_absent : ask 0x0000050A#32 0x3B#64 0#64 = some ⟨0#64, 0#2⟩ := by decide
theorem test_permTest_cached : ask 0x0000150A#32 0x3F#64 0#64 = some ⟨0#64, 3#2⟩ := by decide
theorem test_satpMake_largest :
    ask 0x0000000B#32 0x00FFFFFFFFFFF000#64 0#64 = some ⟨0x80000FFFFFFFFFFF#64, 0#2⟩ := by decide
theorem test_satpMake_misaligned : ask 0x0000000B#32 0x80200010#64 0#64 = some ⟨0#64, 2#2⟩ := by decide
theorem test_pteMake_pointer : ask 0x0000000C#32 0x80201000#64 0x21#64 = some ⟨0x20080421#64, 0#2⟩ := by decide
theorem test_pteMake_b_above_flags : ask 0x0000000C#32 0x80200000#64 0x400#64 = some ⟨0#64, 2#2⟩ := by decide
theorem test_ptePa : ask 0x0000000D#32 0x2008002F#64 0#64 = some ⟨0x80200000#64, 0#2⟩ := by decide
theorem test_ptePa_all_ones :
    ask 0x0000000D#32 0xFFFFFFFFFFFFFFFF#64 0#64 = some ⟨0x00FFFFFFFFFFF000#64, 0#2⟩ := by decide
theorem test_reservedE : ask 0x0000000E#32 0x0#64 0#64 = some ⟨0#64, 1#2⟩ := by decide
theorem test_reservedF : ask 0x0000000F#32 0x0#64 0#64 = some ⟨0#64, 1#2⟩ := by decide
theorem test_command_before_operand : ask 0x00000030#32 0x0000004000000000#64 0#64 = some ⟨0#64, 1#2⟩ := by decide
theorem test_command_before_combination : ask 0x00000708#32 0x3F#64 0#64 = some ⟨0#64, 1#2⟩ := by decide
theorem test_b_ignored : ask 0x00000006#32 0x3F#64 0x1234#64 = some ⟨1#64, 0#2⟩ := by decide

/-! ### The second reading, on one request of each status -/

theorem test_reference_ok :
    Request.expected ⟨0x20#32, 0x3FC0201000#64, 0#64⟩ = ⟨0xFF#64, 0#2⟩ := by decide
theorem test_reference_command : Request.expected ⟨0x708#32, 0x3F#64, 0#64⟩ = ⟨0#64, 1#2⟩ := by decide
theorem test_reference_operand : Request.expected ⟨0xC#32, 0x80200800#64, 0x3F#64⟩ = ⟨0#64, 2#2⟩ := by decide
theorem test_reference_combination : Request.expected ⟨0x60A#32, 0x3F#64, 0#64⟩ = ⟨0#64, 3#2⟩ := by decide

/-! ### The host's notation: 30_encoding.md R55 to R58, 95_test_vectors.md L3 -/

theorem test_assemble_permRm :
    assemble "PERM.RM t0, w.u  ; comment" = some ⟨.permRm ⟨.write, .user, false⟩, .temp 0, none⟩ := by decide
theorem test_assemble_permTest_cached :
    assemble "perm.test 0x3F, x.k.c" = some ⟨.permTest ⟨.execute, .kernel, true⟩, .lit 0x3F#64, none⟩ := by decide
theorem test_assemble_pteMake :
    assemble "pte.make 0x8020_0000, t1" = some ⟨.pteMake, .lit 0x80200000#64, some (.temp 1)⟩ := by decide
theorem test_assemble_refuses_level3 : assemble "vpn 0x3FC0201000, 3" = none := by decide
theorem test_parse_label_before_halt :
    parseProgram ["if t1 == 1 goto done", "done: halt"] =
      some [.ifGoto 1 1#64 "done", .label "done", .halt] := by decide
theorem test_parse_refuses_punctuation_as_label :
    parseProgram [", :"] = none ∧ parseProgram [": :"] = none ∧ parseProgram ["goto ,"] = none ∧
    parseProgram ["if t0 == 1 goto :"] = none := by decide
theorem test_listing_of_pteMake :
    (AsmInstr.listing ⟨.pteMake, .lit 0x80200000#64, some (.temp 1)⟩ [(1, 0x3B#64)]).toOption =
      some ⟨0xC#32, 0x80200000#64, some 0x3B#64⟩ := by decide

/-- P5: a malformed address stops the program; no temporary holds a result. -/
theorem test_program_p5 :
    (parseProgram ["t0 = vpn 0x0000004000000000, 2", "halt"]).map (fun ls => progStep (ProgState.start ls)) =
      some (.ended (.fault .malformedOperand) []) := by decide

/-- P4: the second request is unsupported, and t0 alone is written. -/
theorem test_program_p4 :
    (parseProgram ["t0 = attr.leaf.default", "t1 = perm.rm t0, r.u", "t2 = pte.make 0x80200000, t1", "halt"]).map
      (fun ls => runProgram 4 (ProgState.start ls)) =
      some (.ended (.fault .unsupportedCombination) [(0, 0x3F#64)]) := by decide

/-- P2's branch, taken. -/
theorem test_program_branch :
    progStep ⟨[.ifGoto 1 1#64 "done", .halt, .label "done"], 0, [(1, 1#64)], State.reset⟩ =
      .running ⟨[.ifGoto 1 1#64 "done", .halt, .label "done"], 2, [(1, 1#64)], State.reset⟩ := by decide

/-! ### The host's contract -/

/-- A platform whose hart holds nothing of note at the start. -/
def platform (flushes : Bool) (effect : Option Nat) : HostParams where
  rootSwitchFlushesTlb := flushes
  rootTakesEffectAfter := effect
  satpAtStart := 0#64
  userAccessAtStart := false
  staleAtStart := false

def hostStart : Manager := Manager.start (platform false none)

/-- L2.4: the entry 0x2008003F stored little-endian. -/
theorem test_entry_bytes :
    entryBytes .little 0x2008003F#64 = [0x3F#8, 0x00#8, 0x08#8, 0x20#8, 0#8, 0#8, 0#8, 0#8] := by decide

/-- P3: slot 255 of the root table at 0x80200000. -/
theorem test_slot : slotAddress 0x80200000#64 0xFF#64 = 0x802007F8 := by decide

/-- P3's pointer in slot 255 of the root table at 0x80200000. -/
def storeRoot : Action := .storeEntry 0x802007F8 0x20080421#64

/-- 70_reset_and_hazards.md R107: build the tables, install, then translate; SATP holds the value of L2.6. -/
theorem test_boot_order :
    (Manager.actAll (platform false (some 0))
      [storeRoot, .storeEntry 0x80201FF8 0x2008003F#64, .installRoot 0x80200000#64,
        .translateUsing 0x80200000#64] hostStart).toOption.map
      (fun m => (m.satp, m.mayBeStale)) = some (0x8000000000080200#64, true) := by decide

/-- 70_reset_and_hazards.md R107, step 1: no table, or a pointer to a table that has none. -/
theorem test_install_needs_tables :
    (Manager.act (platform true (some 0)) hostStart (.installRoot 0x80200000#64)).toOption = none ∧
    (Manager.actAll (platform true (some 0)) [storeRoot, .installRoot 0x80200000#64] hostStart).toOption = none := by
  decide

/-- 70_reset_and_hazards.md R111: of two uncoordinated installs the last one stands. -/
theorem test_last_install_stands :
    (Manager.actAll (platform true (some 0)) [.storeEntry 0x1000 0#64, .storeEntry 0x2FF8 0#64,
      .installRoot 0x1000#64, .installRoot 0x2000#64] hostStart).toOption.map
      Manager.satp = some 0x8000000000000002#64 := by decide

/-- 42_translation_control.md R88: a misaligned root is not installed. -/
theorem test_install_refused :
    (Manager.act (platform true (some 0)) hostStart (.installRoot 0x80200010#64)).toOption = none := by decide

/-- 42_translation_control.md R89: after enable a page with U set (0x3F) may be accessed, after disable not, and one
without U (0x2F) still may. -/
theorem test_user_access :
    (Manager.actAll (platform true (some 0)) [.enableUserAccess, .accessPage 0x3F#64, .disableUserAccess, .accessPage 0x2F#64]
      hostStart).toOption.map Manager.userAccess = some false ∧
    (Manager.actAll (platform true (some 0)) [.enableUserAccess, .disableUserAccess, .accessPage 0x3F#64]
      hostStart).toOption = none := by decide

/-- A root installed, then further actions: the root translations have consulted. -/
def rootAfter (effect : Option Nat) (rest : List Action) : Option Word :=
  (Manager.actAll (platform false effect) (.storeEntry 0x1000 0#64 :: .installRoot 0x1000#64 :: rest) hostStart).toOption.map
    Manager.rootInUse

/-- 93_implementation_defined.md U5: a root takes effect at once, after one translation, or when invalidated. -/
theorem test_root_takes_effect :
    rootAfter (some 0) [.translate] = some 0x8000000000000001#64 ∧ rootAfter (some 1) [.translate] = some 0#64 ∧
    rootAfter (some 1) [.translate, .translate] = some 0x8000000000000001#64 ∧ rootAfter none [.translate] = some 0#64 ∧
    rootAfter none [.translate, .invalidate] = some 0x8000000000000001#64 := by decide

/-- 70_reset_and_hazards.md R110: a changed entry may be stale until the host invalidates. -/
theorem test_stale_until_invalidate :
    (Manager.actAll (platform true (some 0)) [.storeEntry 0x1000 0x3F#64] hostStart).toOption.map
      Manager.mayBeStale = some true ∧
    (Manager.actAll (platform true (some 0)) [.storeEntry 0x1000 0x3F#64, .invalidate] hostStart).toOption.map
      Manager.mayBeStale = some false := by decide

/-! ### Witnesses: for each statement with hypotheses, values that meet them, at the ends of each clause's range -/

theorem witness_VpnExtractsIndexField :
    LevelNumber .l0 0 ∧ LevelNumber .l1 1 ∧ LevelNumber .l2 2 ∧
    CanonicalVa (operands 0x3FFFFFFFFF#64 0#64).a ∧ CanonicalVa (operands 0xFFFFFFC000000000#64 0#64).a ∧
    ¬ CanonicalVa (operands 0x4000000000#64 0#64).a ∧ ¬ CanonicalVa (operands 0xFFFFFFBFFFFFFFFF#64 0#64).a := by
  simp only [LevelNumber, CanonicalVa, operands]; decide
theorem witness_PpnExtractsFrameField :
    ValidPa (operands 0x00FFFFFFFFFFFFFF#64 0#64).a ∧ ¬ ValidPa (operands 0x0100000000000000#64 0#64).a ∧
    LevelNumber .l2 2 := by
  simp only [LevelNumber, ValidPa, operands]; decide
theorem witness_VoffExtractsPageOffset :
    CanonicalVa (operands 0#64 0#64).a ∧ ¬ CanonicalVa (operands 0x8000000000000ABC#64 0#64).a := by
  simp only [CanonicalVa, operands]; decide
theorem witness_PoffExtractsPageOffset :
    ValidPa (operands 0#64 0#64).a ∧ ¬ ValidPa (operands 0xFF00000000000000#64 0#64).a := by
  simp only [ValidPa, operands]; decide
theorem witness_AttrLeafComposesLeafWord :
    (operands 0x3FF#64 0#64).a >>> 10 = 0#64 ∧ (operands 0x400#64 0#64).a >>> 10 ≠ 0#64 := by decide
theorem witness_AttrNextComposesPointerWord :
    ((operands 0x321#64 0#64).a >>> 10 = 0#64 ∧ (operands 0x321#64 0#64).a &&& 0xDE#64 = 0#64) ∧
    (operands 0x400#64 0#64).a >>> 10 ≠ 0#64 ∧ (operands 0x80#64 0#64).a &&& 0xDE#64 ≠ 0#64 := by decide
/-- Also for PermAddSetsWriteBit and PermTestReadsWriteBit. -/
theorem witness_PermRmClearsWriteBit :
    (Prot.mk .write .user true).wellFormed = true ∧ Prot.mk .write .user true ≠ writeUser ∧
    (Prot.mk .reserved .user false).wellFormed = false ∧ (Prot.mk .write .reserved3 false).wellFormed = false := by decide
theorem witness_SatpMakeComposesSatpValue :
    (ValidPa (operands 0x00FFFFFFFFFFF000#64 0#64).a ∧ (operands 0x00FFFFFFFFFFF000#64 0#64).a &&& 0xFFF#64 = 0#64) ∧
    ¬ ValidPa (operands 0x0100000000000000#64 0#64).a ∧ (operands 0x800#64 0#64).a &&& 0xFFF#64 ≠ 0#64 := by
  simp only [ValidPa, operands]; decide
theorem witness_PteMakeComposesEntry :
    (ValidPa (operands 0x00FFFFFFFFFFF000#64 0x3FF#64).a ∧ (operands 0x00FFFFFFFFFFF000#64 0x3FF#64).a &&& 0xFFF#64 = 0#64 ∧
      (operands 0x00FFFFFFFFFFF000#64 0x3FF#64).b >>> 10 = 0#64) ∧
    ¬ ValidPa (operands 0x0100000000000000#64 0#64).a ∧ (operands 1#64 0#64).a &&& 0xFFF#64 ≠ 0#64 ∧
    (operands 0#64 0x400#64).b >>> 10 ≠ 0#64 := by
  simp only [ValidPa, operands]; decide
theorem witness_ReservedOpIsMalformedCommand :
    (0xFFFFFFFE#32 : Cmd).extractLsb' 0 4 = 0xE#4 ∧ (0x0000000F#32 : Cmd).extractLsb' 0 4 = 0xF#4 := by decide
theorem witness_StepRunsDecodedInstruction :
    decode (State.reset).cmd = .ok (.vpn .l0) ∧ decode ({ State.reset with cmd := 0x30#32 } : State).cmd = .error .reservedLevel ∧
    0xFFFFFFFF < 2 ^ 32 ∧ decodeTableWord 32 0xFFFFFFFF = some (.reservedF 0xFFFFFFF#28) := by decide
/-- Also for EveryInstructionLiesInItsRow and MalformedOperandExactlyWhen. -/
theorem witness_DecodeOfEncode :
    (Instr.vpn .l2).wellFormed = true ∧ (Instr.permTest ⟨.execute, .user, true⟩).wellFormed = true ∧
    (Instr.reservedF 0xFFFFFFF#28).wellFormed = true := by decide
theorem witness_EncodeOfDecode :
    decode 0x0000160A#32 = .ok (.permTest ⟨.execute, .user, true⟩) ∧ decode 0xFFFFFFFF#32 = .ok (.reservedF 0xFFFFFFF#28) := by decide
theorem witness_NoProtAliasesAnother :
    encode (.permAdd ⟨.write, .user, false⟩) = encode (.permAdd ⟨.write, .user, false⟩) := rfl
theorem witness_OnlyPteMakeReadsB :
    (operands 0x4#64 0#64).cmd.extractLsb' 0 4 ≠ 0xC#4 ∧
    step (operands 0x4#64 0#64) = .next { operands 0x4#64 0#64 with response := some ⟨0#64, 0#2⟩ } := ⟨by decide, rfl⟩
theorem witness_RequestsCommute :
    serveAll [⟨0x6#32, 0x3F#64, 0#64⟩, ⟨0xE#32, 0#64, 0#64⟩] State.reset = [some ⟨1#64, 0#2⟩, some ⟨0#64, 1#2⟩] := by decide
/-- Also for RepeatedRequestChangesNothing. -/
theorem witness_StepKeepsCoherent :
    Coherent State.reset ∧ step State.reset = .next (State.reset.answered 0#64 0#2) :=
  ⟨fun x h => by simp at h, rfl⟩
theorem witness_ResultsStayInTheirFields :
    exec .pteMake (operands 0x00FFFFFFFFFFF000#64 0x3FF#64) =
      .next ((operands 0x00FFFFFFFFFFF000#64 0x3FF#64).answered 0x003FFFFFFFFFFFFF#64 0#2) ∧
    exec (.ppn .l2) (operands 0x00FFFFFFFFFFFFFF#64 0#64) =
      .next ((operands 0x00FFFFFFFFFFFFFF#64 0#64).answered 0x3FFFFFF#64 0#2) ∧
    exec .isLeaf (operands 2#64 0#64) = .next ((operands 2#64 0#64).answered 1#64 0#2) := ⟨rfl, rfl, rfl⟩
theorem witness_CompositionFixesLeafness :
    exec .attrLeaf (operands 0x3C0#64 0#64) = .next ((operands 0x3C0#64 0#64).answered 0x3FF#64 0#2) ∧
    exec .attrNext (operands 0x300#64 0#64) = .next ((operands 0x300#64 0#64).answered 0x321#64 0#2) := ⟨rfl, rfl⟩
/-- Also for EntryHoldsPpnFields. -/
theorem witness_PteMakeKeepsFlagsAndAddress :
    exec .pteMake (operands 0x80200000#64 0x3F#64) = .next ((operands 0x80200000#64 0x3F#64).answered 0x2008003F#64 0#2) := rfl
theorem witness_ReservedEntryBitsIgnored :
    ∀ k, k < 54 → (0xFFC000000000000F#64).getLsbD k = (operands 0xF#64 0#64).a.getLsbD k := by decide
theorem witness_PermLeavesOtherBits :
    permMask writeUser = some 4#64 ∧
    exec (.permRm writeUser) (operands 0x3F#64 0#64) = .next ((operands 0x3F#64 0#64).answered 0x3B#64 0#2) ∧
    (4#64).getLsbD 1 = false ∧ (4#64).getLsbD 3 = false := ⟨rfl, rfl, rfl, rfl⟩
/-- Also for PermRmAndAddIdempotent. -/
theorem witness_PermTestAgreesWithRmAndAdd :
    exec (.permRm writeUser) (operands 0x3B#64 0#64) = .next ((operands 0x3B#64 0#64).answered 0x3B#64 0#2) ∧
    exec (.permAdd writeUser) (operands 0x3B#64 0#64) = .next ((operands 0x3B#64 0#64).answered 0x3F#64 0#2) ∧
    exec (.permRm writeUser) (operands 0x3F#64 0#64) = .next ((operands 0x3F#64 0#64).answered 0x3B#64 0#2) := ⟨rfl, rfl, rfl⟩
theorem witness_PermMayChangeLeafness :
    (operands 0x21#64 0#64).a &&& 0xE#64 = 0#64 ∧ (operands 0x25#64 0#64).a &&& 0xE#64 = 4#64 := by decide
theorem witness_SatpValueFields :
    exec .satpMake (operands 0x80200000#64 0#64) = .next ((operands 0x80200000#64 0#64).answered 0x8000000000080200#64 0#2) := rfl
theorem witness_FaultedAnswerHasNoResult :
    (Response.mk 0#64 3#2).result = none ∧ (Response.mk 0#64 0#2).result = some 0#64 := by decide
theorem witness_OnlyWriteUserHasMask : writeUser.wellFormed = true ∧ (Prot.mk .read .kernel true).wellFormed = true := by decide
theorem witness_AssemblerMakesNoMalformedCommand :
    assemble "is.leaf 0x3F" = some ⟨.isLeaf, .lit 0x3F#64, none⟩ ∧
    ({ operands 0x3F#64 0#64 with cmd := 0x6#32 } : State).cmd = encode .isLeaf := by decide
theorem witness_HostProgramStopsAtFirstFault :
    ([Line.assign 0 ⟨.isLeaf, .lit 0x3F#64, none⟩, .assign 1 ⟨.permRm ⟨.read, .user, false⟩, .temp 0, none⟩])[1]? =
      some (.assign 1 ⟨.permRm ⟨.read, .user, false⟩, .temp 0, none⟩) ∧
    (AsmInstr.toRequest ⟨.isLeaf, .lit 0x3F#64, none⟩ []).toOption = some ⟨0x6#32, 0x3F#64, 0#64⟩ ∧
    (Request.expected ⟨0x6#32, 0x3F#64, 0#64⟩).st = 0#2 ∧ (Request.expected ⟨0x408#32, 1#64, 0#64⟩).st ≠ 0#2 := by decide
theorem witness_HostControlLinesMoveTheProgram :
    ∀ j, [Line.ifGoto 0 1#64 "x", .goto "x", .label "x"][j]? = some (.label "x") ↔ j = 2 := by
  rintro (_ | _ | _ | j) <;> simp
theorem witness_HostControlLinesMoveTheProgram_temps :
    Table.read 0 [(0, 1#64)] = some 1#64 ∧ Table.read 0 [(0, 2#64)] = some 2#64 ∧ 2#64 ≠ 1#64 := by decide
/-- Every OP has a command outside its row's mask: 7:6 for all, and 12 for the rows that use no prot. -/
theorem witness_FaultsOutsideRow :
    (0x40#32 : Cmd).extractLsb' 0 4 = (0x00000000#32 : Cmd).extractLsb' 0 4 ∧ (0x40#32 : Cmd) &&& 0xFFFFFFCF#32 ≠ 0#32 ∧
    (0x1002#32 : Cmd).extractLsb' 0 4 = (0x00000002#32 : Cmd).extractLsb' 0 4 ∧ (0x1002#32 : Cmd) &&& 0xFFFFFFFF#32 ≠ 2#32 ∧
    (0x80000008#32 : Cmd).extractLsb' 0 4 = (0x00000008#32 : Cmd).extractLsb' 0 4 ∧
    (0x80000008#32 : Cmd) &&& 0xFFFFE0FF#32 ≠ 8#32 := by decide
theorem witness_HostProgramEndsInTwoWays :
    progStep (ProgState.start [.halt]) = .ended .ok [] ∧
    progStep (ProgState.start [.assign 0 ⟨.vpn .l2, .lit 0x4000000000#64, none⟩]) = .ended (.fault .malformedOperand) [] := by decide
theorem witness_StoredEntryReadsBack :
    (0 < 8 ∧ 7 < 8) ∧ 0x1000 + 8 ≤ 0x1008 ∧ 0xFFF < 0x1000 := by decide
theorem witness_InstallWritesSatpMakeValue :
    (requestOf .satpMake 0x80200000#64 0#64).expected.st = 0#2 ∧
    (requestOf .satpMake 0x80200010#64 0#64).expected.st ≠ 0#2 ∧
    PageMemory.tablesBuilt .little LEVELS 0x80200000#64 (PageMemory.storeEntry .little 0x80200FF8 0x2008003F#64 []) = true ∧
    PageMemory.tablesBuilt .little LEVELS 0x80200000#64 (PageMemory.storeEntry .little 0x80201000 0x2008003F#64 []) = false ∧
    (Manager.start (platform true none)).pageTables = [] ∧
    (Manager.actAll (platform true (some 0)) ([storeRoot, .storeEntry 0x80201000 0#64] ++ .installRoot 0x80200000#64 :: [])
      hostStart).toOption.isSome = true := by decide
theorem witness_InstallComesBeforeTranslation :
    (Manager.start (platform false none)).installedRoots = [] ∧
    (Manager.actAll (platform false (some 0)) ([.storeEntry 0x1000 0#64, .installRoot 0x1000#64] ++ .translateUsing 0x1000#64 :: [.invalidate])
      hostStart).toOption.isSome = true := by decide

end Sys2Proof.Machine
end

/-! PROOFS. The scope's value conditions (00_scope.md R8, R9, R13): what the checks of addresses mean on shifts and
on bits, and the positions of an entry's flags. -/
section
namespace Sys2Proof.Machine

/-- The topmost field of a word is read by the shift alone: nothing is above it to be cut off. -/
theorem extractLsb'_eq_iff_ushiftRight_eq {lo len : Nat} (h : lo + len = 64) (v : Word) (x : BitVec len) :
    v.extractLsb' lo len = x ↔ v >>> lo = x.setWidth 64 := by
  have hv : v.toNat / 2 ^ lo < 2 ^ len := Nat.div_lt_of_lt_mul (by rw [← pow_add, h]; exact v.isLt)
  have hx : x.toNat < 2 ^ 64 := lt_of_lt_of_le x.isLt (Nat.pow_le_pow_right (by omega) (by omega))
  rw [← BitVec.toNat_inj, ← BitVec.toNat_inj, extractLsb'_toNat, ushiftRight_toNat, Nat.mod_eq_of_lt hv,
    BitVec.toNat_setWidth, Nat.mod_eq_of_lt hx]

/-- The machine's check of a virtual address is the condition of R13 on v[63:38]. -/
theorem canonicalVa_iff (v : Word) : canonicalVa v = true ↔ CanonicalVa v := by
  simp only [canonicalVa, Bool.or_eq_true, beq_iff_eq, extractLsb'_eq_iff_ushiftRight_eq (show 38 + 26 = 64 from rfl)]
  exact Iff.rfl

/-- The machine's check of a physical address is the condition of R13 on v[63:56]. -/
theorem validPa_iff (v : Word) : validPa v = true ↔ ValidPa v := by
  simp only [validPa, beq_iff_eq, extractLsb'_eq_iff_ushiftRight_eq (show 56 + 8 = 64 from rfl)]
  exact Iff.rfl

/-- All zeros or all ones is: every bit is a copy of the lowest. -/
theorem eq_zero_or_allOnes_iff_getLsbD {n : Nat} (x : BitVec n) :
    x = 0#n ∨ x = BitVec.allOnes n ↔ ∀ i, i < n → x.getLsbD i = x.getLsbD 0 := by
  constructor
  · rintro (rfl | rfl) i hi
    · simp
    · simp [hi, Nat.zero_lt_of_lt hi]
  · intro h
    cases h0 : x.getLsbD 0
    · exact .inl (BitVec.eq_of_getLsbD_eq fun i hi => by simp [h i hi, h0])
    · exact .inr (BitVec.eq_of_getLsbD_eq fun i hi => by simp [h i hi, h0, hi])

/-- A canonical address repeats bit 38 in v[63:39]. -/
theorem canonicalVa_iff_getLsbD (v : Word) :
    canonicalVa v = true ↔ ∀ i, 39 ≤ i → i < 64 → v.getLsbD i = v.getLsbD 38 := by
  have hfield : canonicalVa v = true ↔ v.extractLsb' 38 26 = 0#26 ∨ v.extractLsb' 38 26 = BitVec.allOnes 26 := by
    simp only [canonicalVa, Bool.or_eq_true, beq_iff_eq]
    exact Iff.rfl
  rw [hfield, eq_zero_or_allOnes_iff_getLsbD]
  constructor
  · intro h i h39 h64
    simpa [show i - 38 < 26 by omega, show 38 + (i - 38) = i by omega] using h (i - 38) (by omega)
  · intro h i hi
    rcases Nat.eq_zero_or_pos i with rfl | hpos
    · rfl
    · simpa [hi] using h (38 + i) (by omega) (by omega)

/-- The bits of the sign extension of v[38:0]: those of v, then bit 38. -/
theorem getLsbD_signExtend_setWidth (v : Word) {i : Nat} (hi : i < 64) :
    ((v.setWidth 39).signExtend 64).getLsbD i = if i < 39 then v.getLsbD i else v.getLsbD 38 := by
  rw [BitVec.getLsbD_signExtend, BitVec.msb_eq_getLsbD_last]
  split <;> simp [*]

/-- Bit 38 repeated in v[63:39] is the sign extension of v[38:0]. -/
theorem signExtend_eq_self_iff_getLsbD (v : Word) :
    (v.setWidth 39).signExtend 64 = v ↔ ∀ i, 39 ≤ i → i < 64 → v.getLsbD i = v.getLsbD 38 := by
  constructor
  · intro h i h39 h64
    have hbit := getLsbD_signExtend_setWidth v h64
    rwa [h, if_neg (by omega)] at hbit
  · intro h
    refine BitVec.eq_of_getLsbD_eq fun i hi => ?_
    rw [getLsbD_signExtend_setWidth v hi]
    split
    · rfl
    · exact (h i (by omega) hi).symm

/-- Settles O40: each form is the condition that v[63:39] repeats bit 38. -/
theorem canonicalIsSignExtension : Obligations.CanonicalIsSignExtension := fun v =>
  ⟨canonicalVa_iff v,
    (canonicalVa_iff v).symm.trans ((canonicalVa_iff_getLsbD v).trans (signExtend_eq_self_iff_getLsbD v).symm),
    canonicalVa_iff_getLsbD v, validPa_iff v⟩

/-- Settles O39: every clause compares two written-out words. -/
theorem flagPositionsAreTheTable : Obligations.FlagPositionsAreTheTable := by
  unfold Obligations.FlagPositionsAreTheTable
  decide

end Sys2Proof.Machine
end

/-! PROOFS. What a response depends on (10_state.md R15, R18): every meaning answers with a function of the operands it
reads, every meaning but PTE.MAKE reads A alone, and only a word with OP 0xC decodes to PTE.MAKE. -/
section
namespace Sys2Proof

/-! ### What the decoder accepts, and its OP -/

theorem decodePlain_eq_ok {i j : Instr} {c : Cmd} :
    decodePlain i c = .ok j ↔ hasUnusedBits c = false ∧ i = j := by
  unfold decodePlain
  cases hasUnusedBits c <;> simp

theorem decodeLevel_eq_ok {f : Level → Instr} {i : Instr} {c : Cmd} :
    decodeLevel f c = .ok i ↔
      hasUnusedBits c = false ∧ (Level.ofField (levelField c)).wellFormed = true ∧ f (Level.ofField (levelField c)) = i := by
  unfold decodeLevel
  cases hasUnusedBits c <;> cases (Level.ofField (levelField c)).wellFormed <;> simp

theorem decodeProt_eq_ok {f : Prot → Instr} {i : Instr} {c : Cmd} :
    decodeProt f c = .ok i ↔ hasUnusedBits c = false ∧ (protField c).wellFormed = true ∧ f (protField c) = i := by
  unfold decodeProt
  cases hasUnusedBits c <;> cases (protField c).wellFormed <;> simp

/-- The instruction a word decodes to has the word's OP (30_encoding.md R42). -/
theorem op_of_decode_eq_ok {c : Cmd} {i : Instr} (h : decode c = .ok i) : i.op = opField c := by
  unfold decode at h
  split at h
  case h_1 hop | h_2 hop =>
    obtain ⟨-, -, rfl⟩ := decodeLevel_eq_ok.1 h
    exact (opField_of_toNat hop).symm
  case h_9 hop | h_10 hop | h_11 hop =>
    obtain ⟨-, -, rfl⟩ := decodeProt_eq_ok.1 h
    exact (opField_of_toNat hop).symm
  case h_15 hop =>
    cases h
    exact (opField_of_toNat hop).symm
  case h_16 =>
    cases h
    have hlt := (opField c).isLt
    simp only [imp_false] at *
    exact (opField_of_toNat (n := 15) (by omega)).symm
  all_goals
    obtain ⟨-, rfl⟩ := decodePlain_eq_ok.1 h
    exact (opField_of_toNat ‹_›).symm

end Sys2Proof

namespace Sys2Proof.Machine

/-! ### Meanings that answer from what they read -/

/-- The meaning answers every state, its response is a function of what `g` reads of the ports, and the inputs stay as
they are. -/
def AnswersFrom {α : Type} (g : State → α) (m : State → Outcome) : Prop :=
  ∃ f : α → Response, ∀ s, m s = .next { s with response := some (f (g s)) }

section
variable {α β : Type} {g : State → α} {m : State → Outcome}

/-- Two states that `g` reads alike are answered alike. -/
theorem AnswersFrom.response_congr (hm : AnswersFrom g m) {s t : State} {x : Response} (hg : g s = g t)
    (h : m s = .next { s with response := some x }) : m t = .next { t with response := some x } := by
  obtain ⟨f, hf⟩ := hm
  have hx : f (g s) = x := by simpa using (hf s).symm.trans h
  rw [hf t, ← hg, hx]

/-- A meaning that answers from a part of what `g` reads answers from what `g` reads. -/
theorem AnswersFrom.of_comp {p : α → β} (hm : AnswersFrom (p ∘ g) m) : AnswersFrom g m := by
  obtain ⟨f, hf⟩ := hm
  exact ⟨f ∘ p, hf⟩

theorem answersFrom_raise (f : Status) : AnswersFrom g (raise f) :=
  ⟨fun _ => ⟨0#64, f.code⟩, fun _ => rfl⟩

theorem answersFrom_complete (v : α → Word) : AnswersFrom g fun s => complete (v (g s)) s :=
  ⟨fun x => ⟨v x, 0#2⟩, fun _ => rfl⟩

theorem answersFrom_checkOperands (c : α → Bool) (v : α → Word) :
    AnswersFrom g fun s => checkOperands (c (g s)) (v (g s)) s := by
  refine ⟨fun x => if c x then ⟨v x, 0#2⟩ else ⟨0#64, 2#2⟩, fun s => ?_⟩
  obtain ⟨hc, h⟩ | ⟨hc, h⟩ := checkOperands_cases (c (g s)) (v (g s)) s <;>
    exact h.trans (by simp [hc, State.answered])

theorem answersFrom_withField (sel : Option (Nat × Nat)) {k : Nat → Nat → State → Outcome}
    (hk : ∀ lo len, AnswersFrom g (k lo len)) : AnswersFrom g fun s => withField sel s fun lo len => k lo len s := by
  cases sel with
  | none => exact answersFrom_raise .malformedCommand
  | some field => exact hk field.1 field.2

/-- Whether there is a mask is the prot's alone. -/
theorem answersFrom_withMask (p : Prot) (f : α → Word → Word) : AnswersFrom g fun s => withMask p (f (g s)) s := by
  unfold withMask
  split
  · split
    next m _ => exact answersFrom_complete fun x => f x m
    · exact answersFrom_raise .unsupportedCombination
  · exact answersFrom_raise .malformedCommand

end

/-- PTE.MAKE answers from A and B (10_state.md R17, R18). -/
theorem execPteMake_answersFrom : AnswersFrom (fun s => (s.a, s.b)) execPteMake :=
  answersFrom_checkOperands (g := fun s => (s.a, s.b)) (fun x => validPa x.1 && pageAligned x.1 && flagsOnly x.2)
    fun x => (frameNumber x.1 <<< PTE_PPN_SHIFT) ||| x.2

/-- Every other instruction answers from A alone (10_state.md R18). -/
theorem exec_answersFrom_a {i : Instr} (hi : i ≠ .pteMake) : AnswersFrom State.a (exec i) := by
  cases i with
  | vpn level => exact answersFrom_withField _ fun lo len => answersFrom_checkOperands canonicalVa (bitField lo len)
  | ppn level => exact answersFrom_withField _ fun lo len => answersFrom_checkOperands validPa (bitField lo len)
  | voff => exact answersFrom_checkOperands canonicalVa pageOffset
  | poff => exact answersFrom_checkOperands validPa pageOffset
  | attrLeaf => exact answersFrom_checkOperands flagsOnly (· ||| PAGE_DEFAULT_ATTR_LEAF)
  | attrNext =>
    exact answersFrom_checkOperands (fun a => flagsOnly a && !anySet a NEXT_LEVEL_REFUSED) (· ||| PAGE_DEFAULT_ATTR_NEXT)
  | isLeaf => exact answersFrom_complete fun a => zextBool (anySet a PTE_XWR_MASK)
  | isPresent => exact answersFrom_complete fun a => zextBool (anySet a PTE_V)
  | permRm prot => exact answersFrom_withMask prot fun a m => a &&& ~~~m
  | permAdd prot => exact answersFrom_withMask prot fun a m => a ||| m
  | permTest prot => exact answersFrom_withMask prot fun a m => zextBool (allSet a m)
  | satpMake =>
    exact answersFrom_checkOperands (fun a => validPa a && pageAligned a)
      fun a => (SV39 <<< SATP_MODE_OFFSET) ||| frameNumber a
  | pteMake => exact absurd rfl hi
  | ptePa => exact answersFrom_complete entryAddress
  | reservedE rest => exact answersFrom_raise .malformedCommand
  | reservedF rest => exact answersFrom_raise .malformedCommand

theorem exec_answersFrom (i : Instr) : AnswersFrom (fun s => (s.a, s.b)) (exec i) := by
  by_cases hi : i = .pteMake
  · subst hi
    exact execPteMake_answersFrom
  · exact AnswersFrom.of_comp (p := Prod.fst) (exec_answersFrom_a hi)

/-! ### The step -/

/-- What the step does with what the decoder says of CMD. -/
def runDecoded : Except DecodeError Instr → State → Outcome
  | .ok i => exec i
  | .error e => reject e

theorem step_eq_runDecoded (s : State) : step s = runDecoded (decode s.cmd) s := by
  unfold step fetch
  cases decode s.cmd <;> rfl

theorem runDecoded_answersFrom (d : Except DecodeError Instr) : AnswersFrom (fun s => (s.a, s.b)) (runDecoded d) := by
  cases d with
  | ok i => exact exec_answersFrom i
  | error e => exact answersFrom_raise .malformedCommand

/-- A command whose OP is not that of PTE.MAKE is answered from A alone. -/
theorem runDecoded_decode_answersFrom_a {c : Cmd} (hop : opField c ≠ 0xC#4) :
    AnswersFrom State.a (runDecoded (decode c)) := by
  cases hd : decode c with
  | ok i =>
    refine exec_answersFrom_a ?_
    rintro rfl
    exact hop (op_of_decode_eq_ok hd).symm
  | error e => exact answersFrom_raise .malformedCommand

/-- Settles O29: the decoder reads CMD, and whatever it says is answered from A and B. -/
theorem stepIsFunctionOfInputs : Obligations.StepIsFunctionOfInputs := by
  choose f hf using fun c : Cmd => runDecoded_answersFrom (decode c)
  exact ⟨fun c a b => f c (a, b), fun s => (step_eq_runDecoded s).trans (hf s.cmd s)⟩

/-- PTE.MAKE with every flag clear and with V set makes two entries. -/
theorem pteMake_reads_b :
    ∃ (s : State) (x : Response) (v : Word), s.cmd.extractLsb' 0 4 = 0xC#4 ∧
      step s = .next { s with response := some x } ∧
      step { s with b := v } ≠ .next { s with b := v, response := some x } := by
  refine ⟨⟨0xC#32, 0#64, 0#64, none⟩, ⟨0#64, 0#2⟩, 1#64, by decide, rfl, fun h => ?_⟩
  exact absurd (congrArg responseOf h) (by decide)

/-- Settles O31: off OP 0xC, states that differ in B alone are answered alike; PTE.MAKE copies B. -/
theorem onlyPteMakeReadsB : Obligations.OnlyPteMakeReadsB := by
  refine ⟨fun s x v hop h => ?_, pteMake_reads_b⟩
  rw [step_eq_runDecoded] at h ⊢
  exact (runDecoded_decode_answersFrom_a hop).response_congr (s := s) (t := { s with b := v }) rfl h

end Sys2Proof.Machine
end

/-! PROOFS. The reserved OP values and the partition of the commands (30_encoding.md R49, R51): what the decoder accepts
is well formed, an instruction with OP 0xE or 0xF has MalformedCommand as its one effect, and every other accepted word is
an operation of R48. -/
section
namespace Sys2Proof

/-- The decoder accepts no reserved field value (30_encoding.md R50, R54). -/
theorem wellFormed_of_decode_eq_ok {c : Cmd} {i : Instr} (h : decode c = .ok i) : i.wellFormed = true := by
  unfold decode at h
  split at h
  case h_1 | h_2 =>
    obtain ⟨-, hlevel, rfl⟩ := decodeLevel_eq_ok.1 h
    exact hlevel
  case h_9 | h_10 | h_11 =>
    obtain ⟨-, hprot, rfl⟩ := decodeProt_eq_ok.1 h
    exact hprot
  case h_15 | h_16 =>
    cases h
    rfl
  all_goals
    obtain ⟨-, rfl⟩ := decodePlain_eq_ok.1 h
    rfl

end Sys2Proof

namespace Sys2Proof.Machine

theorem step_of_decode_eq_ok {s : State} {i : Instr} (h : decode s.cmd = .ok i) : step s = exec i s := by
  rw [step_eq_runDecoded, h, runDecoded]

theorem step_of_decode_eq_error {s : State} {e : DecodeError} (h : decode s.cmd = .error e) :
    step s = .next (s.answered 0#64 1#2) := by
  rw [step_eq_runDecoded, h, runDecoded, reject_eq]

theorem exec_reservedE (rest : BitVec 28) (s : State) : exec (.reservedE rest) s = .next (s.answered 0#64 1#2) := rfl

theorem exec_reservedF (rest : BitVec 28) (s : State) : exec (.reservedF rest) s = .next (s.answered 0#64 1#2) := rfl

/-- The two reserved rows are the only ones with an OP from 0xE up (30_encoding.md R48, R49). -/
theorem exec_of_reserved_op {i : Instr} (h : 14 ≤ i.op.toNat) (s : State) :
    exec i s = .next (s.answered 0#64 1#2) := by
  cases i with
  | reservedE rest => exact exec_reservedE rest s
  | reservedF rest => exact exec_reservedF rest s
  | _ => exact absurd h (by simp [Instr.op])

/-- A reserved OP is MalformedCommand, whether the decoder accepts the word or rejects it. -/
theorem step_of_reserved_op {s : State} (h : 14 ≤ (opField s.cmd).toNat) : step s = .next (s.answered 0#64 1#2) := by
  cases hd : decode s.cmd with
  | ok i =>
    rw [← op_of_decode_eq_ok hd] at h
    exact (step_of_decode_eq_ok hd).trans (exec_of_reserved_op h s)
  | error e => exact step_of_decode_eq_error hd

/-- Settles O15: OP alone decides, before any other bit of CMD or an operand is looked at. -/
theorem reservedOpIsMalformedCommand : Obligations.ReservedOpIsMalformedCommand := by
  refine ⟨fun s hop => step_of_reserved_op ?_, fun s rest => exec_reservedE rest s, fun s rest => exec_reservedF rest s⟩
  obtain hop | hop := hop <;> simp [opField, hop]

/-- Settles O21: a rejected word and a reserved OP are MalformedCommand; any other word decodes to what the step runs. -/
theorem everyCommandIsAnOperationOrMalformed : Obligations.EveryCommandIsAnOperationOrMalformed := by
  intro s
  cases hd : decode s.cmd with
  | error e => exact .inr (step_of_decode_eq_error hd)
  | ok i =>
    by_cases hop : i.op.toNat < 14
    · exact .inl ⟨i, rfl, hop, wellFormed_of_decode_eq_ok hd, step_of_decode_eq_ok hd⟩
    · exact .inr ((step_of_decode_eq_ok hd).trans (exec_of_reserved_op (by omega) s))

end Sys2Proof.Machine
end

/-! PROOFS. The encoding of a row (30_encoding.md R42, R44, R46, R47, R54): a word is decoded to what encodes to it, so
each instruction has one word, and a bit outside a row's match and mask is an unused bit, which the decoder rejects. -/
section
namespace Sys2Proof

/-- CMD[31:4] of an instruction's word is CMD[31:4] of the word it was decoded from: no accepted bit is lost. -/
theorem upperBits_of_decode_eq_ok {c : Cmd} {i : Instr} (h : decode c = .ok i) : i.upperBits = restField c := by
  unfold decode at h
  split at h
  case h_1 hop | h_2 hop =>
    obtain ⟨hused, -, rfl⟩ := decodeLevel_eq_ok.1 h
    simpa [Instr.upperBits] using (congrArg restField (eq_of_level hop rfl hused)).symm
  case h_9 hop | h_10 hop | h_11 hop =>
    obtain ⟨hused, -, rfl⟩ := decodeProt_eq_ok.1 h
    simpa [Instr.upperBits, protField] using (congrArg restField (eq_of_prot hop rfl hused)).symm
  case h_15 | h_16 =>
    cases h
    rfl
  all_goals
    obtain ⟨hused, rfl⟩ := decodePlain_eq_ok.1 h
    rw [eq_of_plain ‹_› rfl hused, restField_append]
    rfl

/-- A word decodes to an instruction that encodes to it (30_encoding.md R52). -/
theorem encode_of_decode_eq_ok {c : Cmd} {i : Instr} (h : decode c = .ok i) : encode i = c := by
  rw [encode, upperBits_of_decode_eq_ok h, op_of_decode_eq_ok h, restField_append_opField]

/-- Off the two reserved OP values an unused bit is rejected before any field is read (30_encoding.md R54). -/
theorem decode_of_hasUnusedBits {c : Cmd} (hop : (opField c).toNat < 14) (h : hasUnusedBits c = true) :
    decode c = .error .unusedBits := by
  unfold decode
  split
  case h_1 | h_2 => simp [decodeLevel, h]
  case h_9 | h_10 | h_11 => simp [decodeProt, h]
  case h_15 hres => omega
  case h_16 => simp only [imp_false] at *; omega
  all_goals simp [decodePlain, h]

/-- The word with OP alone has that OP. -/
theorem opField_setWidth (op : BitVec 4) : opField (op.setWidth 32) = op := by
  revert op
  decide

/-- OP is no part of any USED_MASK (30_encoding.md R47). -/
theorem getLsbD_usedMask_of_lt {i : Nat} (hi : i < 4) (op : BitVec 4) : (usedMask op).getLsbD i = false := by
  revert i op
  decide

/-- With no unused bit set, what lies outside USED_MASK is OP. -/
theorem and_not_usedMask_of_not_hasUnusedBits {c : Cmd} (h : hasUnusedBits c = false) :
    c &&& ~~~usedMask (opField c) = (opField c).setWidth 32 := by
  refine BitVec.eq_of_getLsbD_eq fun i hi => ?_
  rw [BitVec.getLsbD_and, BitVec.getLsbD_not, BitVec.getLsbD_setWidth]
  by_cases hlow : i < 4
  · rw [getLsbD_usedMask_of_lt hlow]
    simp [opField, hi, hlow]
  · rw [BitVec.getLsbD_of_ge (opField c) i (by omega)]
    cases hm : (usedMask (opField c)).getLsbD i
    · have hF : (0xF#32).getLsbD i = false := by
        clear hm
        revert i
        decide
      simp [bit_of_not_hasUnusedBits h i (by simp [hm, hF])]
    · simp

end Sys2Proof

namespace Sys2Proof.Machine

/-- A word that decodes to an instruction is the only one that does. -/
theorem encodedAs_of_decode_eq_ok {i : Instr} {w : Cmd} (h : decode w = .ok i) : EncodedAs i w := by
  refine fun c => ⟨fun hc => ?_, fun hc => hc ▸ h⟩
  rw [← encode_of_decode_eq_ok hc, encode_of_decode_eq_ok h]

/-- The row of an OP that is not reserved has OP as its match and all but USED_MASK as its mask; a command with that OP
outside the row has an unused bit set. -/
theorem faultsOutsideRow_of_op {op : BitVec 4} (hop : op.toNat < 14) :
    FaultsOutsideRow (op.setWidth 32) (~~~usedMask op) := by
  intro s hsame hout
  have hfield : opField s.cmd = op := hsame.trans (opField_setWidth op)
  subst hfield
  cases hused : hasUnusedBits s.cmd
  · exact absurd (and_not_usedMask_of_not_hasUnusedBits hused) hout
  · exact step_of_decode_eq_error (decode_of_hasUnusedBits hop hused)

end Sys2Proof.Machine
end

/-! PROOFS. The address and entry layout codec (40_layout_codec.md R60 to R69, R72): each meaning as its operand check
and its result in the spec's shifts and masks. -/
section
namespace Sys2Proof.Machine

/-! ### What a check decides, and what the operations read -/

/-- An instruction that is a checked operation completes where its check's condition holds and is MalformedOperand
everywhere else (60_exceptions.md R94). -/
theorem exec_of_checkOperands {i : Instr} {c : State → Bool} {v : State → Word} {P : State → Prop}
    (hexec : ∀ s, exec i s = checkOperands (c s) (v s) s) (hc : ∀ s, c s = true ↔ P s) :
    (∀ s, P s → exec i s = .next (s.answered (v s) 0#2)) ∧
    (∀ s, ¬ P s → exec i s = .next (s.answered 0#64 2#2)) := by
  constructor <;> intro s h
  · rw [hexec, (hc s).2 h, checkOperands_true]
  · rw [hexec, Bool.eq_false_of_not_eq_true (mt (hc s).1 h), checkOperands_false]

theorem anySet_iff (v mask : Word) : anySet v mask = true ↔ v &&& mask ≠ 0#64 := by
  simp [anySet]

/-- ATTR.NEXT's bound: no bit above the flags and none of X, W, R, U, A and D (40_layout_codec.md R65). -/
theorem attrNext_check_iff (v : Word) :
    (flagsOnly v && !anySet v NEXT_LEVEL_REFUSED) = true ↔ v >>> 10 = 0#64 ∧ v &&& 0xDE#64 = 0#64 := by
  rw [Bool.and_eq_true, flagsOnly_iff, Bool.not_eq_true', ← Bool.not_eq_true, anySet_iff, not_not]
  exact Iff.rfl

/-- PTE.MAKE's bounds (40_layout_codec.md R68). -/
theorem pteMake_check_iff (a b : Word) :
    (validPa a && pageAligned a && flagsOnly b) = true ↔ ValidPa a ∧ a &&& 0xFFF#64 = 0#64 ∧ b >>> 10 = 0#64 := by
  rw [Bool.and_eq_true, Bool.and_eq_true, validPa_iff, pageAligned_iff, flagsOnly_iff, and_assoc]

/-- The valid bit as a number is the valid bit. -/
theorem zextBool_anySet_one (v : Word) : zextBool (anySet v 1#64) = v &&& 1#64 := by
  have hbit : v &&& 1#64 = (v.extractLsb' 0 1).setWidth 64 := and_lowMask v 1
  rw [anySet, hbit]
  generalize v.extractLsb' 0 1 = x
  revert x
  decide

/-- E[53:10] as PA[55:12] in shifts and a mask of 44 bits (40_layout_codec.md R69). -/
theorem entryAddress_eq (e : Word) : entryAddress e = ((e >>> 10) &&& 0xFFFFFFFFFFF#64) <<< 12 := by
  rw [entryAddress, bitField_eq]
  rfl

/-- The same with the mask first: the address is read off the entry's PPN bits alone. -/
theorem entryAddress_eq_mask_shift (e : Word) : entryAddress e = ((e &&& PTE_PPN) >>> 10) <<< 12 := by
  rw [entryAddress_eq, BitVec.ushiftRight_and_distrib]
  rfl

theorem vpnField_of_levelNumber {l : Level} {n : Nat} (h : LevelNumber l n) : vpnField l = some (12 + 9 * n, 9) := by
  obtain ⟨rfl, rfl⟩ | ⟨rfl, rfl⟩ | ⟨rfl, rfl⟩ := h <;> rfl

theorem exists_ppnField_of_levelNumber {l : Level} {n : Nat} (h : LevelNumber l n) :
    ∃ lo len, ppnField l = some (lo, len) := by
  obtain ⟨rfl, rfl⟩ | ⟨rfl, rfl⟩ | ⟨rfl, rfl⟩ := h <;> exact ⟨_, _, rfl⟩

/-! ### One equation per instruction -/

theorem exec_vpn {l : Level} {n : Nat} (h : LevelNumber l n) (s : State) :
    exec (.vpn l) s = checkOperands (canonicalVa s.a) ((s.a >>> (12 + 9 * n)) &&& 0x1FF#64) s := by
  rw [exec, execVpn, vpnField_of_levelNumber h, withField_some, bitField_eq]
  rfl

theorem exec_ppn {l : Level} {lo len : Nat} (h : ppnField l = some (lo, len)) (s : State) :
    exec (.ppn l) s = checkOperands (validPa s.a) ((s.a >>> lo) &&& BitVec.ofNat 64 (2 ^ len - 1)) s := by
  rw [exec, execPpn, h, withField_some, bitField_eq]

theorem exec_voff (s : State) : exec .voff s = checkOperands (canonicalVa s.a) (s.a &&& 0xFFF#64) s := by
  rw [exec, execVoff, pageOffset_eq]

theorem exec_poff (s : State) : exec .poff s = checkOperands (validPa s.a) (s.a &&& 0xFFF#64) s := by
  rw [exec, execPoff, pageOffset_eq]

theorem exec_attrLeaf (s : State) : exec .attrLeaf s = checkOperands (flagsOnly s.a) (s.a ||| 0x3F#64) s := rfl

theorem exec_attrNext (s : State) :
    exec .attrNext s = checkOperands (flagsOnly s.a && !anySet s.a NEXT_LEVEL_REFUSED) (s.a ||| 0x21#64) s := rfl

theorem exec_isLeaf (s : State) : exec .isLeaf s = .next (s.answered (zextBool (anySet s.a 0xE#64)) 0#2) := rfl

theorem exec_isPresent (s : State) : exec .isPresent s = .next (s.answered (s.a &&& 1#64) 0#2) := by
  rw [← zextBool_anySet_one]
  rfl

theorem exec_pteMake (s : State) :
    exec .pteMake s =
      checkOperands (validPa s.a && pageAligned s.a && flagsOnly s.b) (((s.a >>> 12) <<< 10) ||| s.b) s := rfl

theorem exec_ptePa (s : State) : exec .ptePa s = .next (s.answered (entryAddress s.a) 0#2) := rfl

/-! ### The entry's reserved bits -/

/-- Each operation that takes an entry completes with a function of bits 53:0 of it, those a mask selects
(40_layout_codec.md R66, R67, R69). -/
theorem exec_of_entry_eq_of_mask {i : Instr} (hi : i = .isLeaf ∨ i = .isPresent ∨ i = .ptePa) :
    ∃ (m : Word) (f : Word → Word), BitVec.ofNat 64 (2 ^ 54 - 1) &&& m = m ∧
      ∀ s, exec i s = .next (s.answered (f (s.a &&& m)) 0#2) := by
  obtain rfl | rfl | rfl := hi
  · exact ⟨0xE#64, fun x => zextBool (x != 0#64), by decide, exec_isLeaf⟩
  · exact ⟨1#64, id, by decide, exec_isPresent⟩
  · exact ⟨PTE_PPN, fun x => (x >>> 10) <<< 12, by decide, fun s => by rw [exec_ptePa, entryAddress_eq_mask_shift]⟩

/-- Words that agree below bit `n` agree under the mask of the low `n` bits. -/
theorem and_lowMask_congr {e a : Word} {n : Nat} (h : ∀ k, k < n → e.getLsbD k = a.getLsbD k) :
    e &&& BitVec.ofNat 64 (2 ^ n - 1) = a &&& BitVec.ofNat 64 (2 ^ n - 1) := by
  have hfield : e.extractLsb' 0 n = a.extractLsb' 0 n := by
    refine BitVec.eq_of_getLsbD_eq fun k hk => ?_
    rw [BitVec.getLsbD_extractLsb', BitVec.getLsbD_extractLsb', Nat.zero_add, h k hk]
  rw [and_lowMask, and_lowMask, hfield]

/-- Settles O44: the mask of each operation lies in bits 53:0, so both entries are the same under it. -/
theorem reservedEntryBitsIgnored : Obligations.ReservedEntryBitsIgnored := by
  intro i s e hi hlow
  obtain ⟨m, f, hm, hexec⟩ := exec_of_entry_eq_of_mask hi
  have hmasked : e &&& m = s.a &&& m := by
    rw [← hm, ← BitVec.and_assoc, and_lowMask_congr hlow, BitVec.and_assoc]
  exact ⟨f (s.a &&& m), hexec s, hmasked ▸ hexec { s with a := e }⟩

/-! ### The obligations of each operation -/

/-- Settles O1: the field of a level is the 9 bits from bit 12 + 9 * LEVEL up. -/
theorem vpnExtractsIndexField : Obligations.VpnExtractsIndexField := by
  have hva {l n} (hl : LevelNumber l n) := exec_of_checkOperands (exec_vpn hl) fun s => canonicalVa_iff s.a
  exact ⟨faultsOutsideRow_of_op (op := 0x0#4) (by decide),
    ⟨encodedAs_of_decode_eq_ok rfl, encodedAs_of_decode_eq_ok rfl, encodedAs_of_decode_eq_ok rfl⟩,
    fun s _ _ hl => (hva hl).1 s, fun s _ _ hl => (hva hl).2 s, fun _ => rfl⟩

/-- Settles O2: the fields are 9, 9 and 26 bits wide, and all three have one operand check. -/
theorem ppnExtractsFrameField : Obligations.PpnExtractsFrameField := by
  have hpa {l lo len} (hfield : ppnField l = some (lo, len)) :=
    exec_of_checkOperands (exec_ppn hfield) fun s => validPa_iff s.a
  refine ⟨faultsOutsideRow_of_op (op := 0x1#4) (by decide),
    ⟨encodedAs_of_decode_eq_ok rfl, encodedAs_of_decode_eq_ok rfl, encodedAs_of_decode_eq_ok rfl⟩,
    fun s h => ⟨?_, ?_, ?_⟩, fun s l n hl h => ?_, fun _ => rfl⟩
  · simpa using (hpa (show ppnField .l0 = some (12, 9) from rfl)).1 s h
  · simpa using (hpa (show ppnField .l1 = some (21, 9) from rfl)).1 s h
  · simpa using (hpa (show ppnField .l2 = some (30, 26) from rfl)).1 s h
  · obtain ⟨lo, len, hfield⟩ := exists_ppnField_of_levelNumber hl
    exact (hpa hfield).2 s h

/-- Settles O3: the page offset is read once the address is canonical. -/
theorem voffExtractsPageOffset : Obligations.VoffExtractsPageOffset :=
  ⟨faultsOutsideRow_of_op (op := 0x2#4) (by decide), encodedAs_of_decode_eq_ok rfl,
    exec_of_checkOperands exec_voff fun s => canonicalVa_iff s.a⟩

/-- Settles O4: the page offset is read once A[63:56] is 0. -/
theorem poffExtractsPageOffset : Obligations.PoffExtractsPageOffset :=
  ⟨faultsOutsideRow_of_op (op := 0x3#4) (by decide), encodedAs_of_decode_eq_ok rfl,
    exec_of_checkOperands exec_poff fun s => validPa_iff s.a⟩

/-- Settles O5: the leaf preset is 0x3F, and A[63:10] = 0 is the whole check. -/
theorem attrLeafComposesLeafWord : Obligations.AttrLeafComposesLeafWord :=
  ⟨faultsOutsideRow_of_op (op := 0x4#4) (by decide), encodedAs_of_decode_eq_ok rfl,
    exec_of_checkOperands exec_attrLeaf fun s => flagsOnly_iff s.a⟩

/-- Settles O6: the next-level preset is 0x21; a base beyond either bound is refused. -/
theorem attrNextComposesPointerWord : Obligations.AttrNextComposesPointerWord := by
  obtain ⟨hok, hfault⟩ := exec_of_checkOperands exec_attrNext fun s => attrNext_check_iff s.a
  exact ⟨faultsOutsideRow_of_op (op := 0x5#4) (by decide), encodedAs_of_decode_eq_ok rfl,
    fun s hhigh hrefused => hok s ⟨hhigh, hrefused⟩, fun s h => hfault s (not_and_or.2 h)⟩

/-- Settles O7: the mask of X, W and R is 0xE, and there is no operand check. -/
theorem isLeafTestsXwrBits : Obligations.IsLeafTestsXwrBits := by
  refine ⟨faultsOutsideRow_of_op (op := 0x6#4) (by decide), encodedAs_of_decode_eq_ok rfl, fun s => ?_⟩
  rw [exec_isLeaf, zextBool]
  simp only [anySet_iff]

/-- Settles O8: there is no operand check. -/
theorem isPresentReadsValidBit : Obligations.IsPresentReadsValidBit :=
  ⟨faultsOutsideRow_of_op (op := 0x7#4) (by decide), encodedAs_of_decode_eq_ok rfl, exec_isPresent⟩

/-- Settles O13: operands beyond any one of the three bounds are refused. -/
theorem pteMakeComposesEntry : Obligations.PteMakeComposesEntry := by
  obtain ⟨hok, hfault⟩ := exec_of_checkOperands exec_pteMake fun s => pteMake_check_iff s.a s.b
  refine ⟨faultsOutsideRow_of_op (op := 0xC#4) (by decide), encodedAs_of_decode_eq_ok rfl,
    fun s hpa haligned hflags => hok s ⟨hpa, haligned, hflags⟩, fun s h => hfault s ?_⟩
  rwa [not_and_or, not_and_or]

/-- Settles O14: the entry's frame number is 44 bits, and there is no operand check. -/
theorem ptePaTakesAddressBack : Obligations.PtePaTakesAddressBack := by
  refine ⟨faultsOutsideRow_of_op (op := 0xD#4) (by decide), encodedAs_of_decode_eq_ok rfl, fun s => ?_⟩
  rw [exec_ptePa, entryAddress_eq]

end Sys2Proof.Machine
end

/-! PROOFS. The prot of a command word (30_encoding.md R41, R45; 41_permission_algebra.md R84): its three fields are read
back from every PERM.* word, reserved values included, and the row's match and mask say the rest of the word. -/
section
namespace Sys2Proof

/-- A word has a prot exactly when it has its three fields. -/
theorem protField_eq_iff {c : Cmd} {p : Prot} :
    protField c = p ↔ permField c = p.perm.field ∧ prinField c = p.prin.field ∧ cacheField c = p.cache := by
  constructor
  · rintro rfl
    simp [protField]
  · rintro ⟨hperm, hprin, hcache⟩
    simp [protField, hperm, hprin, hcache]

/-- The layout of R41 puts the three fields of a prot where the decoder reads them. -/
theorem fields_append : ∀ (cache : Bool) (prin perm : BitVec 2) (op : BitVec 4),
    let c : Cmd := (0#19 ++ BitVec.ofBool cache ++ prin ++ perm ++ 0#4) ++ op
    permField c = perm ∧ prinField c = prin ∧ cacheField c = cache := by
  decide

theorem protField_append (p : Prot) (op : BitVec 4) :
    protField ((0#19 ++ BitVec.ofBool p.cache ++ p.prin.field ++ p.perm.field ++ 0#4) ++ op) = p :=
  protField_eq_iff.2 (fields_append p.cache p.prin.field p.perm.field op)

/-- The three operations that take a prot (30_encoding.md R48). -/
def TakesProt (f : Prot → Instr) : Prop := f = .permRm ∨ f = .permAdd ∨ f = .permTest

/-- The word of each of them holds its prot, reserved field values too. -/
theorem protField_encode {f : Prot → Instr} (hf : TakesProt f) (p : Prot) : protField (encode (f p)) = p := by
  obtain rfl | rfl | rfl := hf <;> exact protField_append p _

theorem encode_comp_injective {f : Prot → Instr} (hf : TakesProt f) : Function.Injective fun p => encode (f p) :=
  Function.LeftInverse.injective (g := protField) (protField_encode hf)

theorem op_of_takesProt {f : Prot → Instr} (hf : TakesProt f) (p q : Prot) : (f p).op = (f q).op := by
  obtain rfl | rfl | rfl := hf <;> rfl

theorem usedMask_of_takesProt {f : Prot → Instr} (hf : TakesProt f) (p : Prot) : usedMask (f p).op = 0x1F00#32 := by
  obtain rfl | rfl | rfl := hf <;> rfl

/-- Their words are decoded by way of `decodeProt` (30_encoding.md R42, R54). -/
theorem decode_of_takesProt {f : Prot → Instr} (hf : TakesProt f) {c : Cmd} {p : Prot} (h : opField c = (f p).op) :
    decode c = decodeProt f c := by
  unfold decode
  rw [h]
  obtain rfl | rfl | rfl := hf <;> rfl

/-- No USED_MASK takes a bit of OP away (30_encoding.md R47). -/
theorem opField_and_not_usedMask (c : Cmd) (op : BitVec 4) : opField (c &&& ~~~usedMask op) = opField c := by
  refine BitVec.eq_of_getLsbD_eq fun i hi => ?_
  have hi32 : i < 32 := by omega
  rw [opField, opField, BitVec.getLsbD_extractLsb', BitVec.getLsbD_extractLsb', Nat.zero_add, BitVec.getLsbD_and,
    BitVec.getLsbD_not, getLsbD_usedMask_of_lt hi]
  simp [hi32]

/-- The decoder's two checks before the fields are one comparison under the row's mask (30_encoding.md R47, R54). -/
theorem opField_eq_and_not_hasUnusedBits_iff {c : Cmd} {op : BitVec 4} :
    (opField c = op ∧ hasUnusedBits c = false) ↔ c &&& ~~~usedMask op = op.setWidth 32 := by
  constructor
  · rintro ⟨rfl, hused⟩
    exact and_not_usedMask_of_not_hasUnusedBits hused
  · intro hrow
    have hop : opField c = op := by
      rw [← opField_and_not_usedMask c op, hrow, opField_setWidth]
    have hnone : ∀ op : BitVec 4, op.setWidth 32 &&& ~~~0xF#32 = 0#32 := by decide
    refine ⟨hop, ?_⟩
    rw [hasUnusedBits, hop, BitVec.not_or, BitVec.and_comm (~~~0xF#32), ← BitVec.and_assoc, hrow, hnone,
      bne_self_eq_false]

end Sys2Proof

namespace Sys2Proof.Machine

/-- Settles O22: the prot is read back from each of the three words. -/
theorem noProtAliasesAnother : Obligations.NoProtAliasesAnother := by
  rintro p q (h | h | h)
  · exact encode_comp_injective (.inl rfl) h
  · exact encode_comp_injective (.inr (.inl rfl)) h
  · exact encode_comp_injective (.inr (.inr rfl)) h

/-- A word is accepted as one of them when it lies in the operation's row and its fields are those of a well-formed
prot. -/
theorem encodesProt_of_takesProt {f : Prot → Instr} (hf : TakesProt f) :
    EncodesProt f ((f writeUser).op.setWidth 32) := by
  intro c p
  have haccept : decode c = .ok (f p) ↔
      (opField c = (f writeUser).op ∧ hasUnusedBits c = false) ∧ protField c = p ∧ p.wellFormed = true := by
    constructor
    · intro h
      have hop : opField c = (f writeUser).op := (op_of_decode_eq_ok h).symm.trans (op_of_takesProt hf p writeUser)
      obtain ⟨hused, hwf, hfp⟩ := decodeProt_eq_ok.1 (decode_of_takesProt hf hop ▸ h)
      obtain rfl := encode_comp_injective hf (congrArg encode hfp)
      exact ⟨⟨hop, hused⟩, rfl, hwf⟩
    · rintro ⟨⟨hop, hused⟩, rfl, hwf⟩
      exact (decode_of_takesProt hf hop).trans (decodeProt_eq_ok.2 ⟨hused, hwf, rfl⟩)
  rw [haccept, opField_eq_and_not_hasUnusedBits_iff, usedMask_of_takesProt hf, protField_eq_iff, and_assoc, and_assoc]
  exact Iff.rfl

end Sys2Proof.Machine
end

/-! PROOFS. The permission algebra (41_permission_algebra.md R73 to R77, R82, R83): the prot alone decides which status is
answered, and write.user's operations are bit 2 of A set, cleared or read. -/
section
namespace Sys2Proof.Machine

/-! ### The prots -/

/-- The 12 well-formed prots: 3 permissions, 2 principals, with and without the cache qualifier (R73). -/
def wellFormedProts : List Prot :=
  [.read, .write, .execute].flatMap fun perm => [.kernel, .user].flatMap fun prin =>
    [false, true].map fun cache => { perm := perm, prin := prin, cache := cache }

theorem mem_wellFormedProts (p : Prot) : p ∈ wellFormedProts ↔ p.wellFormed = true := by
  obtain ⟨perm, prin, cache⟩ := p
  cases perm <;> cases prin <;> cases cache <;> decide

/-- Settles O46: the machine's table has the one row; the counts are over the listed prots. -/
theorem onlyWriteUserHasMask : Obligations.OnlyWriteUserHasMask := by
  refine ⟨fun p _ => ?_, wellFormedProts, by decide, by decide, mem_wellFormedProts, by decide⟩
  split
  case isTrue h => rw [h, permMask_writeUser]
  case isFalse h => exact permMask_of_ne h

/-! ### What the operations answer -/

/-- An instruction that is a masked operation completes for write.user, is UnsupportedCombination for any other
well-formed prot, and MalformedCommand for an ill-formed one (60_exceptions.md R96). -/
theorem exec_of_withMask {i : Prot → Instr} {f : State → Word → Word}
    (hexec : ∀ p s, exec (i p) s = withMask p (f s) s) :
    (∀ s, exec (i writeUser) s = .next (s.answered (f s 4#64) 0#2)) ∧
    (∀ s p, p.wellFormed = true → p ≠ writeUser → exec (i p) s = .next (s.answered 0#64 3#2)) ∧
    (∀ s p, p.wellFormed = false → exec (i p) s = .next (s.answered 0#64 1#2)) := by
  refine ⟨fun s => hexec writeUser s, fun s p hwf hne => ?_, fun s p hwf => ?_⟩
  · obtain ⟨h, -⟩ | ⟨-, -, h⟩ | ⟨h, -⟩ := withMask_cases p (f s) s
    · exact absurd h hne
    · exact (hexec p s).trans h
    · exact absurd (hwf.symm.trans h) (by decide)
  · obtain ⟨rfl, -⟩ | ⟨h, -, -⟩ | ⟨-, h⟩ := withMask_cases p (f s) s
    · exact absurd hwf (by decide)
    · exact absurd (hwf.symm.trans h) (by decide)
    · exact (hexec p s).trans h

theorem exec_permRm (p : Prot) (s : State) : exec (.permRm p) s = withMask p (fun m => s.a &&& ~~~m) s := rfl

theorem exec_permAdd (p : Prot) (s : State) : exec (.permAdd p) s = withMask p (fun m => s.a ||| m) s := rfl

theorem exec_permTest (p : Prot) (s : State) :
    exec (.permTest p) s = withMask p (fun m => zextBool (allSet s.a m)) s := rfl

theorem exec_permRm_writeUser (s : State) : exec (.permRm writeUser) s = .next (s.answered (s.a &&& ~~~4#64) 0#2) :=
  (exec_of_withMask exec_permRm).1 s

theorem exec_permAdd_writeUser (s : State) : exec (.permAdd writeUser) s = .next (s.answered (s.a ||| 4#64) 0#2) :=
  (exec_of_withMask exec_permAdd).1 s

/-- The mask of write.user is bit 2 alone, so all of it is set when that bit is. -/
theorem allSet_four (v : Word) : allSet v 4#64 = v.getLsbD 2 := by
  have hbit : v &&& 4#64 = if v.getLsbD 2 then 4#64 else 0#64 := BitVec.and_twoPow v 2
  rw [allSet, hbit]
  cases v.getLsbD 2 <;> rfl

theorem exec_permTest_writeUser (s : State) :
    exec (.permTest writeUser) s = .next (s.answered (if s.a.getLsbD 2 then 1#64 else 0#64) 0#2) := by
  rw [(exec_of_withMask exec_permTest).1, allSet_four, zextBool]

/-- Settles O9: PERM.RM is `withMask` at OP 8. -/
theorem permRmClearsWriteBit : Obligations.PermRmClearsWriteBit :=
  ⟨faultsOutsideRow_of_op (op := 0x8#4) (by decide), encodesProt_of_takesProt (.inl rfl),
    encodedAs_of_decode_eq_ok rfl, exec_of_withMask exec_permRm⟩

/-- Settles O10: PERM.ADD is `withMask` at OP 9. -/
theorem permAddSetsWriteBit : Obligations.PermAddSetsWriteBit :=
  ⟨faultsOutsideRow_of_op (op := 0x9#4) (by decide), encodesProt_of_takesProt (.inr (.inl rfl)),
    encodedAs_of_decode_eq_ok rfl, exec_of_withMask exec_permAdd⟩

/-- Settles O11: PERM.TEST is `withMask` at OP 0xA. -/
theorem permTestReadsWriteBit : Obligations.PermTestReadsWriteBit :=
  ⟨faultsOutsideRow_of_op (op := 0xA#4) (by decide), encodesProt_of_takesProt (.inr (.inr rfl)),
    encodedAs_of_decode_eq_ok rfl, exec_permTest_writeUser, (exec_of_withMask exec_permTest).2⟩

/-! ### The classification and the bits above the flags -/

/-- IS.LEAF of a word whose X, W and R bits are known. -/
theorem exec_isLeaf_of_and_eq {s : State} {x : Word} (h : s.a &&& 0xE#64 = x) :
    exec .isLeaf s = .next (s.answered (zextBool (x != 0#64)) 0#2) := by
  rw [exec_isLeaf, anySet, h]

/-- Settles O50: the mask 4 is one of the bits IS.LEAF tests, so adding it makes a leaf, and removing it where it is the
only one set makes a non-leaf. -/
theorem permMayChangeLeafness : Obligations.PermMayChangeLeafness := by
  refine ⟨fun s hxwr => ?_, fun s hxwr => ?_⟩
  · have hadd : (s.a ||| 4#64) &&& 0xE#64 = 4#64 := by
      rw [BitVec.and_or_distrib_right, hxwr]
      rfl
    exact ⟨_, exec_permAdd_writeUser s, hadd, exec_isLeaf_of_and_eq (s := { s with a := _ }) hadd⟩
  · have hrm : (s.a &&& ~~~4#64) &&& 0xE#64 = 0#64 := by
      rw [BitVec.and_assoc, BitVec.and_comm (~~~4#64), ← BitVec.and_assoc, hxwr]
      rfl
    exact ⟨_, exec_permRm_writeUser s, exec_isLeaf_of_and_eq (s := { s with a := _ }) hrm⟩

/-- Clearing bits below `k` leaves the bits from `k` up. -/
theorem ushiftRight_and_not {m : Word} {k : Nat} (h : m >>> k = 0#64) (v : Word) : (v &&& ~~~m) >>> k = v >>> k := by
  refine BitVec.eq_of_getLsbD_eq fun i _ => ?_
  have hm : m.getLsbD (k + i) = false := by rw [← BitVec.getLsbD_ushiftRight, h, BitVec.getLsbD_zero]
  have hv : v.getLsbD (k + i) = true → k + i < 64 := BitVec.lt_of_getLsbD
  simpa [hm] using hv

/-- Setting bits below `k` leaves the bits from `k` up. -/
theorem ushiftRight_or {m : Word} {k : Nat} (h : m >>> k = 0#64) (v : Word) : (v ||| m) >>> k = v >>> k := by
  rw [BitVec.ushiftRight_or_distrib, h, BitVec.or_zero]

/-- Settles O51: the mask lies in the flag bits 9:0, and none of the three operations checks A. -/
theorem permAcceptsWholeEntries : Obligations.PermAcceptsWholeEntries := by
  intro s
  have hmask : 4#64 >>> 10 = 0#64 := by decide
  exact ⟨_, _, _, exec_permRm_writeUser s, exec_permAdd_writeUser s, exec_permTest_writeUser s,
    ushiftRight_and_not hmask s.a, ushiftRight_or hmask s.a⟩

end Sys2Proof.Machine
end

/-! PROOFS. The SATP value (42_translation_control.md R85 to R87): SATP.MAKE as its operand check and its result, and the
three fields of that result. -/
section
namespace Sys2Proof.Machine

/-! ### The operand check and the result -/

/-- SATP.MAKE's bounds: a physical address of a page (42_translation_control.md R85). -/
theorem satpMake_check_iff (a : Word) :
    (validPa a && pageAligned a) = true ↔ ValidPa a ∧ a &&& 0xFFF#64 = 0#64 := by
  rw [Bool.and_eq_true, validPa_iff, pageAligned_iff]

theorem exec_satpMake (s : State) :
    exec .satpMake s = checkOperands (validPa s.a && pageAligned s.a) ((8#64 <<< 60) ||| (s.a >>> 12)) s := rfl

/-- Settles O12: operands beyond either bound are refused. -/
theorem satpMakeComposesSatpValue : Obligations.SatpMakeComposesSatpValue := by
  obtain ⟨hok, hfault⟩ := exec_of_checkOperands exec_satpMake fun s => satpMake_check_iff s.a
  exact ⟨faultsOutsideRow_of_op (op := 0xB#4) (by decide), encodedAs_of_decode_eq_ok rfl,
    fun s hpa haligned => hok s ⟨hpa, haligned⟩, fun s h => hfault s (not_and_or.2 h)⟩

/-- A checked operation that completes met its check's condition and gave its own result. -/
theorem of_exec_completes_of_checkOperands {i : Instr} {c : State → Bool} {v : State → Word} {P : State → Prop}
    (hexec : ∀ s, exec i s = checkOperands (c s) (v s) s) (hc : ∀ s, c s = true ↔ P s) {s : State} {w : Word}
    (h : exec i s = .next (s.answered w 0#2)) : P s ∧ w = v s := by
  obtain ⟨hok, hfault⟩ := exec_of_checkOperands hexec hc
  by_cases hP : P s
  · exact ⟨hP, (next_answered_inj (h.symm.trans (hok s hP))).1⟩
  · exact absurd (next_answered_inj (h.symm.trans (hfault s hP))).2 (by decide)

/-! ### The fields of the result -/

/-- A field of a shifted word is the field `k` bits higher up. -/
theorem extractLsb'_ushiftRight (v : Word) (k lo len : Nat) :
    (v >>> k).extractLsb' lo len = v.extractLsb' (k + lo) len := by
  refine BitVec.eq_of_getLsbD_eq fun i _ => ?_
  rw [BitVec.getLsbD_extractLsb', BitVec.getLsbD_extractLsb', BitVec.getLsbD_ushiftRight, Nat.add_assoc]

/-- A field above all set bits is 0. -/
theorem extractLsb'_eq_zero_of_ushiftRight_eq_zero {v : Word} {k lo : Nat} (len : Nat) (h : v >>> k = 0#64)
    (hlo : k ≤ lo) : v.extractLsb' lo len = 0#len := by
  obtain ⟨d, rfl⟩ := Nat.exists_eq_add_of_le hlo
  rw [← extractLsb'_ushiftRight, h, BitVec.extractLsb'_zero]

/-- A field of the SATP value is the field of the mode's part, OR the field of A 12 bits higher up. -/
theorem extractLsb'_satpValue (a : Word) (lo len : Nat) :
    ((8#64 <<< 60) ||| (a >>> 12)).extractLsb' lo len =
      (8#64 <<< 60).extractLsb' lo len ||| a.extractLsb' (12 + lo) len := by
  rw [BitVec.extractLsb'_or, extractLsb'_ushiftRight]

/-- Settles O52: SATP.MAKE completes on valid addresses alone, so A has nothing to put above bit 43 of the value, and
the mode's part has nothing below bit 60. -/
theorem satpValueFields : Obligations.SatpValueFields := by
  intro s v h
  obtain ⟨⟨hpa, -⟩, rfl⟩ := of_exec_completes_of_checkOperands exec_satpMake (fun s => satpMake_check_iff s.a) h
  refine ⟨?mode, ?asid, ?ppn⟩ <;> rw [extractLsb'_satpValue]
  case mode =>
    rw [extractLsb'_eq_zero_of_ushiftRight_eq_zero 4 hpa (by decide)]
    rfl
  case asid =>
    rw [extractLsb'_eq_zero_of_ushiftRight_eq_zero 16 hpa (by decide)]
    rfl
  case ppn =>
    have hmode : (8#64 <<< 60).extractLsb' 0 44 = 0#44 := by decide
    rw [hmode, BitVec.zero_or]

end Sys2Proof.Machine
end

/-! PROOFS. The status of an answer (60_exceptions.md R91, R92): each instruction's status as a function of the operands,
the shared operations answer with it, and R is 0 beside any status but OK. -/
section
namespace Sys2Proof.Machine

/-! ### The codes -/

@[simp] theorem Status.ofCode_code (f : Status) : Status.ofCode f.code = f := by cases f <;> rfl

theorem Status.code_injective : Function.Injective Status.code :=
  Function.LeftInverse.injective (g := Status.ofCode) Status.ofCode_code

/-- Settles O28: the codes and the statuses are listed in one order. -/
theorem statusCodesAreTheTable : Obligations.StatusCodesAreTheTable :=
  ⟨rfl, rfl, rfl, rfl, Status.ofCode_code, by decide⟩

/-! ### Answering with a status -/

/-- The outcome is the state answered with the code of `f`, and with R = 0 if `f` is a fault (R92). -/
def AnswersWith (s : State) (f : Status) (o : Outcome) : Prop :=
  ∃ v, o = .next (s.answered v f.code) ∧ (f ≠ .ok → v = 0#64)

/-- An outcome is the answer of a fault exactly when the fault is its status. -/
theorem AnswersWith.eq_fault_iff {s : State} {f g : Status} {o : Outcome} (h : AnswersWith s f o) (hg : g ≠ .ok) :
    o = .next (s.answered 0#64 g.code) ↔ f = g := by
  obtain ⟨v, rfl, hv⟩ := h
  constructor
  · exact fun h => Status.code_injective (next_answered_inj h).2
  · rintro rfl
    rw [hv hg]

/-- The status of a checked operation (R94). -/
def checkStatus (inBounds : Bool) : Status := if inBounds then .ok else .malformedOperand

/-- The status of a permission operation, which its prot decides (R93, R95). -/
def protStatus (p : Prot) : Status :=
  if p.wellFormed then if p = writeUser then .ok else .unsupportedCombination else .malformedCommand

/-- The status an instruction answers with. -/
def instrStatus (i : Instr) (s : State) : Status :=
  match i with
  | .vpn l => if l.wellFormed then checkStatus (canonicalVa s.a) else .malformedCommand
  | .ppn l => if l.wellFormed then checkStatus (validPa s.a) else .malformedCommand
  | .voff => checkStatus (canonicalVa s.a)
  | .poff => checkStatus (validPa s.a)
  | .attrLeaf => checkStatus (flagsOnly s.a)
  | .attrNext => checkStatus (flagsOnly s.a && !anySet s.a NEXT_LEVEL_REFUSED)
  | .isLeaf | .isPresent | .ptePa => .ok
  | .permRm p | .permAdd p | .permTest p => protStatus p
  | .satpMake => checkStatus (validPa s.a && pageAligned s.a)
  | .pteMake => checkStatus (validPa s.a && pageAligned s.a && flagsOnly s.b)
  | .reservedE _ | .reservedF _ => .malformedCommand

theorem complete_answersWith (v : Word) (s : State) : AnswersWith s .ok (complete v s) :=
  ⟨v, rfl, fun h => absurd rfl h⟩

theorem raise_answersWith (f : Status) (s : State) : AnswersWith s f (raise f s) :=
  ⟨0#64, rfl, fun _ => rfl⟩

theorem checkOperands_answersWith (c : Bool) (v : Word) (s : State) :
    AnswersWith s (checkStatus c) (checkOperands c v s) := by
  cases c
  · exact raise_answersWith .malformedOperand s
  · exact complete_answersWith v s

theorem withMask_answersWith (p : Prot) (f : Word → Word) (s : State) :
    AnswersWith s (protStatus p) (withMask p f s) := by
  unfold protStatus
  obtain ⟨rfl, h⟩ | ⟨hwf, hne, h⟩ | ⟨hwf, h⟩ := withMask_cases p f s
  · exact h ▸ complete_answersWith (f 4#64) s
  · rw [h, if_pos hwf, if_neg hne]
    exact raise_answersWith .unsupportedCombination s
  · rw [h, hwf]
    exact raise_answersWith .malformedCommand s

/-- Every instruction answers with its status. -/
theorem exec_answersWith (i : Instr) (s : State) : AnswersWith s (instrStatus i s) (exec i s) := by
  cases i with
  | vpn l =>
    cases l with
    | reserved => exact raise_answersWith .malformedCommand s
    | _ => exact checkOperands_answersWith (canonicalVa s.a) _ s
  | ppn l =>
    cases l with
    | reserved => exact raise_answersWith .malformedCommand s
    | _ => exact checkOperands_answersWith (validPa s.a) _ s
  | permRm p | permAdd p | permTest p => exact withMask_answersWith p _ s
  | isLeaf | isPresent | ptePa => exact complete_answersWith _ s
  | reservedE rest | reservedF rest => exact raise_answersWith .malformedCommand s
  | voff | poff | attrLeaf | attrNext | satpMake | pteMake => exact checkOperands_answersWith _ _ s

/-- The status of the step: a word the decoder rejects is MalformedCommand (R93). -/
def stepStatus (s : State) : Status :=
  match decode s.cmd with
  | .ok i => instrStatus i s
  | .error _ => .malformedCommand

theorem stepStatus_of_decode_eq_ok {s : State} {i : Instr} (h : decode s.cmd = .ok i) :
    stepStatus s = instrStatus i s := by
  rw [stepStatus, h]

theorem stepStatus_of_decode_eq_error {s : State} {e : DecodeError} (h : decode s.cmd = .error e) :
    stepStatus s = .malformedCommand := by
  rw [stepStatus, h]

theorem step_answersWith (s : State) : AnswersWith s (stepStatus s) (step s) := by
  cases hd : decode s.cmd with
  | ok i =>
    rw [stepStatus_of_decode_eq_ok hd, step_of_decode_eq_ok hd]
    exact exec_answersWith i s
  | error e =>
    rw [stepStatus_of_decode_eq_error hd, step_of_decode_eq_error hd]
    exact raise_answersWith .malformedCommand s

/-- Settles O27: the step answers with a status, and every status but OK has a code other than 0. -/
theorem faultedAnswerHasNoResult : Obligations.FaultedAnswerHasNoResult := by
  intro s
  obtain ⟨v, hstep, hv⟩ := step_answersWith s
  refine ⟨⟨v, (stepStatus s).code⟩, hstep, fun hst => ⟨hv fun hok => hst ?_, Response.result_of_fault hst⟩,
    Response.result_of_ok⟩
  rw [hok, Status.code]

/-! ### MalformedOperand and UnsupportedCombination -/

@[simp] theorem checkStatus_eq_malformedOperand {c : Bool} : checkStatus c = .malformedOperand ↔ ¬ c = true := by
  cases c <;> simp [checkStatus]

@[simp] theorem checkStatus_ne_unsupported (c : Bool) : checkStatus c ≠ .unsupportedCombination := by
  cases c <;> simp [checkStatus]

@[simp] theorem protStatus_ne_malformedOperand (p : Prot) : protStatus p ≠ .malformedOperand := by
  unfold protStatus
  split_ifs <;> simp

@[simp] theorem checkStatus_ne_malformedCommand (c : Bool) : checkStatus c ≠ .malformedCommand := by
  cases c <;> simp [checkStatus]

theorem protStatus_ne_malformedCommand {p : Prot} (h : p.wellFormed = true) : protStatus p ≠ .malformedCommand := by
  unfold protStatus
  split_ifs <;> simp

theorem eq_writeUser_iff (p : Prot) : p = writeUser ↔ p.perm = .write ∧ p.prin = .user ∧ p.cache = false := by
  obtain ⟨perm, prin, cache⟩ := p
  simp [writeUser]

theorem protStatus_eq_unsupported {p : Prot} :
    protStatus p = .unsupportedCombination ↔ p.wellFormed = true ∧ p ≠ writeUser := by
  unfold protStatus
  split_ifs <;> simp [*]

/-- Settles O24: the machine's checks are the bounds of the table, and a permission operation checks no operand. -/
theorem malformedOperandExactlyWhen : Obligations.MalformedOperandExactlyWhen := by
  intro i s hwf
  refine ((exec_answersWith i s).eq_fault_iff (g := .malformedOperand) (by decide)).trans ?_
  cases i with
  | vpn l | ppn l =>
    have hl : l.wellFormed = true := hwf
    simp [instrStatus, hl, canonicalVa_iff, validPa_iff, ValidPa]
  | voff | poff | attrLeaf => simp [instrStatus, canonicalVa_iff, validPa_iff, ValidPa, flagsOnly_iff]
  | attrNext | satpMake | pteMake =>
    simp [instrStatus, attrNext_check_iff, satpMake_check_iff, pteMake_check_iff, ValidPa, not_and_or, -not_and,
      -Bool.and_eq_true, -Bool.not_eq_true]
  | permRm p | permAdd p | permTest p | isLeaf | isPresent | ptePa | reservedE rest | reservedF rest =>
    simp [instrStatus]

/-- Settles O25: no operand check answers it, and of the prots the well-formed ones other than write.user do. -/
theorem unsupportedExactlyWhen : Obligations.UnsupportedExactlyWhen := by
  intro i s
  refine ((exec_answersWith i s).eq_fault_iff (g := .unsupportedCombination) (by decide)).trans ?_
  cases i with
  | permRm p | permAdd p | permTest p => simp [instrStatus, protStatus_eq_unsupported, eq_writeUser_iff]
  | vpn l | ppn l => cases l <;> simp [instrStatus, Level.wellFormed]
  | _ => simp [instrStatus]

end Sys2Proof.Machine
end

/-! PROOFS. The legal commands (60_exceptions.md R93): the bits of CMD that an operation leaves unused as fields, and the
decoder's checks as the list of R93. -/
section
namespace Sys2Proof

/-! ### Fields and masks of CMD -/

/-- A field is 0 when both parts of it are. -/
theorem extractLsb'_add_eq_zero_iff {w : Nat} (v : BitVec w) (lo m n : Nat) :
    v.extractLsb' lo (m + n) = 0#(m + n) ↔ v.extractLsb' lo m = 0#m ∧ v.extractLsb' (lo + m) n = 0#n := by
  simp only [← BitVec.toNat_inj, BitVec.extractLsb'_toNat, Nat.shiftRight_eq_div_pow, BitVec.toNat_zero]
  rw [pow_add, pow_add, Nat.mod_mul, Nat.add_eq_zero_iff, Nat.div_div_eq_div_mul, Nat.mul_eq_zero]
  simp

/-- The mask of the `len` bits from bit `lo` up. -/
def fieldMask (lo len : Nat) : Cmd := (BitVec.allOnes len).setWidth 32 <<< lo

theorem getLsbD_fieldMask {i : Nat} (hi : i < 32) (lo len : Nat) :
    (fieldMask lo len).getLsbD i = decide (lo ≤ i ∧ i < lo + len) := by
  by_cases hlo : lo ≤ i
  · simp [fieldMask, hi, hlo, Nat.sub_lt_iff_lt_add hlo, Nat.add_comm]
  · simp [fieldMask, hlo, show i < lo by omega]

/-- A word has no bit under the mask of a field exactly when the field is 0. -/
theorem and_fieldMask_eq_zero_iff (c : Cmd) (lo len : Nat) :
    c &&& fieldMask lo len = 0#32 ↔ c.extractLsb' lo len = 0#len := by
  constructor <;> intro h <;> refine BitVec.eq_of_getLsbD_eq fun i hi => ?_
  · by_cases h32 : lo + i < 32
    · simpa [getLsbD_fieldMask h32, hi] using congrArg (·.getLsbD (lo + i)) h
    · simp [BitVec.getLsbD_of_ge c (lo + i) (by omega)]
  · rw [BitVec.getLsbD_and, getLsbD_fieldMask hi, BitVec.getLsbD_zero, Bool.and_eq_false_imp, decide_eq_false_iff_not]
    rintro hc ⟨hlo, hlen⟩
    have hbit := congrArg (·.getLsbD (i - lo)) h
    simp [show i - lo < len by omega, show lo + (i - lo) = i by omega, hc] at hbit

theorem hasUnusedBits_iff_and_ne_zero {c m : Cmd} (h : ~~~(0xF#32 ||| usedMask (opField c)) = m) :
    hasUnusedBits c = true ↔ c &&& m ≠ 0#32 := by
  rw [hasUnusedBits, h, bne_iff_ne]

/-- CMD[31:6] in the parts that R93 names. -/
theorem cmd_31_6_eq_zero_iff (c : Cmd) : c.extractLsb' 6 26 = 0#26 ↔
    c.extractLsb' 6 2 = 0#2 ∧ c.extractLsb' 8 5 = 0#5 ∧ c.extractLsb' 13 19 = 0#19 :=
  (extractLsb'_add_eq_zero_iff c 6 2 24).trans (and_congr_right' (extractLsb'_add_eq_zero_iff c 8 5 19))

theorem cmd_31_4_eq_zero_iff (c : Cmd) :
    c.extractLsb' 4 28 = 0#28 ↔ c.extractLsb' 4 2 = 0#2 ∧ c.extractLsb' 6 26 = 0#26 :=
  extractLsb'_add_eq_zero_iff c 4 2 26

theorem cmd_7_4_eq_zero_iff (c : Cmd) :
    c.extractLsb' 4 4 = 0#4 ↔ c.extractLsb' 4 2 = 0#2 ∧ c.extractLsb' 6 2 = 0#2 :=
  extractLsb'_add_eq_zero_iff c 4 2 2

/-! ### The list of R93 -/

/-- The commands that R93 lists, by the fields of CMD. -/
def RejectedCommand (c : Cmd) : Prop :=
  let op := c.extractLsb' 0 4
  (op = 0xE#4 ∨ op = 0xF#4) ∨ c.extractLsb' 13 19 ≠ 0#19 ∨ c.extractLsb' 6 2 ≠ 0#2 ∨
  ((op = 0x0#4 ∨ op = 0x1#4) ∧ (c.extractLsb' 8 5 ≠ 0#5 ∨ c.extractLsb' 4 2 = 3#2)) ∨
  ((op = 0x8#4 ∨ op = 0x9#4 ∨ op = 0xA#4) ∧
    (c.extractLsb' 4 2 ≠ 0#2 ∨ c.extractLsb' 8 2 = 3#2 ∨ c.extractLsb' 10 2 = 2#2 ∨ c.extractLsb' 10 2 = 3#2)) ∨
  (¬ (op = 0x0#4 ∨ op = 0x1#4 ∨ op = 0x8#4 ∨ op = 0x9#4 ∨ op = 0xA#4) ∧
    (c.extractLsb' 4 2 ≠ 0#2 ∨ c.extractLsb' 8 5 ≠ 0#5))

theorem rejectedCommand_of_reserved_op {c : Cmd} (h : 14 ≤ (opField c).toNat) : RejectedCommand c := by
  have hop : ∀ op : BitVec 4, 14 ≤ op.toNat → op = 0xE#4 ∨ op = 0xF#4 := by decide
  exact .inl (hop _ h)

/-- VPN and PPN: CMD[31:6] is unused, and LEVEL 3 is reserved. -/
theorem rejectedCommand_of_level {c : Cmd} (h : usedMask (opField c) = 0x30#32) :
    RejectedCommand c ↔ c.extractLsb' 6 26 ≠ 0#26 ∨ levelField c = 3#2 := by
  have hops : ∀ op : BitVec 4, usedMask op = 0x30#32 → op = 0x0#4 ∨ op = 0x1#4 := by decide
  have hop : c.extractLsb' 0 4 = 0x0#4 ∨ c.extractLsb' 0 4 = 0x1#4 := hops _ h
  rw [RejectedCommand, levelField, ne_eq (c.extractLsb' 6 26), cmd_31_6_eq_zero_iff]
  obtain hop | hop := hop <;> simp [hop] <;> tauto

/-- PERM.RM, PERM.ADD and PERM.TEST: CMD[31:13] and CMD[7:4] are unused, and PERM 3 and PRIN 2 and 3 are reserved. -/
theorem rejectedCommand_of_prot {c : Cmd} (h : usedMask (opField c) = 0x1F00#32) :
    RejectedCommand c ↔ (c.extractLsb' 13 19 ≠ 0#19 ∨ c.extractLsb' 4 4 ≠ 0#4) ∨
      permField c = 3#2 ∨ prinField c = 2#2 ∨ prinField c = 3#2 := by
  have hops : ∀ op : BitVec 4, usedMask op = 0x1F00#32 → op = 0x8#4 ∨ op = 0x9#4 ∨ op = 0xA#4 := by decide
  have hop : c.extractLsb' 0 4 = 0x8#4 ∨ c.extractLsb' 0 4 = 0x9#4 ∨ c.extractLsb' 0 4 = 0xA#4 := hops _ h
  rw [RejectedCommand, permField, prinField, ne_eq (c.extractLsb' 4 4), cmd_7_4_eq_zero_iff]
  obtain hop | hop | hop := hop <;> simp [hop] <;> tauto

/-- The operations with no field: all of CMD[31:4] is unused. -/
theorem rejectedCommand_of_plain {c : Cmd} (hlt : (opField c).toNat < 14) (h : usedMask (opField c) = 0#32) :
    RejectedCommand c ↔ c.extractLsb' 4 28 ≠ 0#28 := by
  have hops : ∀ op : BitVec 4, op.toNat < 14 → usedMask op = 0#32 → op ≠ 0x0#4 ∧ op ≠ 0x1#4 ∧ op ≠ 0x8#4 ∧
      op ≠ 0x9#4 ∧ op ≠ 0xA#4 ∧ op ≠ 0xE#4 ∧ op ≠ 0xF#4 := by decide
  obtain ⟨h0, h1, h8, h9, hA, hE, hF⟩ := hops _ hlt h
  unfold opField at *
  rw [RejectedCommand, ne_eq (c.extractLsb' 4 28), cmd_31_4_eq_zero_iff, cmd_31_6_eq_zero_iff]
  simp only [h0, h1, h8, h9, hA, hE, hF, or_false, false_or, false_and, not_false_eq_true, true_and]
  tauto

/-! ### The decoder's checks -/

theorem hasUnusedBits_of_level {c : Cmd} (h : usedMask (opField c) = 0x30#32) :
    hasUnusedBits c = true ↔ c.extractLsb' 6 26 ≠ 0#26 := by
  rw [hasUnusedBits_iff_and_ne_zero (m := fieldMask 6 26) (by rw [h]; decide), ne_eq, and_fieldMask_eq_zero_iff]

theorem hasUnusedBits_of_prot {c : Cmd} (h : usedMask (opField c) = 0x1F00#32) :
    hasUnusedBits c = true ↔ c.extractLsb' 13 19 ≠ 0#19 ∨ c.extractLsb' 4 4 ≠ 0#4 := by
  rw [hasUnusedBits_iff_and_ne_zero (m := fieldMask 13 19 ||| fieldMask 4 4) (by rw [h]; decide), ne_eq,
    BitVec.and_or_distrib_left, BitVec.or_eq_zero_iff, and_fieldMask_eq_zero_iff, and_fieldMask_eq_zero_iff, not_and_or]

theorem hasUnusedBits_of_plain {c : Cmd} (h : usedMask (opField c) = 0#32) :
    hasUnusedBits c = true ↔ c.extractLsb' 4 28 ≠ 0#28 := by
  rw [hasUnusedBits_iff_and_ne_zero (m := fieldMask 4 28) (by rw [h]; decide), ne_eq, and_fieldMask_eq_zero_iff]

theorem level_wellFormed_ofField : ∀ f : BitVec 2, (Level.ofField f).wellFormed = true ↔ f ≠ 3#2 := by decide

theorem protField_wellFormed (c : Cmd) :
    (protField c).wellFormed = true ↔ ¬ (permField c = 3#2 ∨ prinField c = 2#2 ∨ prinField c = 3#2) := by
  have hfields : ∀ perm prin : BitVec 2, ((Perm.ofField perm).wellFormed && (Prin.ofField prin).wellFormed) = true ↔
      ¬ (perm = 3#2 ∨ prin = 2#2 ∨ prin = 3#2) := by decide
  exact hfields _ _

/-- Off the reserved OP values the decoder accepts exactly what R93 does not list. -/
theorem exists_decode_eq_ok_iff {c : Cmd} (hlt : (opField c).toNat < 14) :
    (∃ i, decode c = .ok i) ↔ ¬ RejectedCommand c := by
  unfold decode
  split
  case h_1 hop | h_2 hop =>
    have hmask : usedMask (opField c) = 0x30#32 := by rw [opField_of_toNat hop]; rfl
    simp [decodeLevel_eq_ok, rejectedCommand_of_level hmask, ← hasUnusedBits_of_level hmask, level_wellFormed_ofField]
  case h_9 hop | h_10 hop | h_11 hop =>
    have hmask : usedMask (opField c) = 0x1F00#32 := by rw [opField_of_toNat hop]; rfl
    simp [decodeProt_eq_ok, rejectedCommand_of_prot hmask, ← hasUnusedBits_of_prot hmask, protField_wellFormed]
  case h_15 hop => omega
  case h_16 => simp only [imp_false] at *; omega
  all_goals
    have hmask : usedMask (opField c) = 0#32 := by rw [opField_of_toNat ‹_›]; rfl
    simp [decodePlain_eq_ok, rejectedCommand_of_plain hlt hmask, ← hasUnusedBits_of_plain hmask]

end Sys2Proof

namespace Sys2Proof.Machine

/-- An instruction of R48 that is well formed is not MalformedCommand. -/
theorem instrStatus_ne_malformedCommand {i : Instr} (hop : i.op.toNat < 14) (hwf : i.wellFormed = true) (s : State) :
    instrStatus i s ≠ .malformedCommand := by
  cases i with
  | vpn l | ppn l =>
    have hl : l.wellFormed = true := hwf
    simp [instrStatus, hl]
  | permRm p | permAdd p | permTest p => exact protStatus_ne_malformedCommand hwf
  | reservedE rest | reservedF rest => exact absurd hop (by simp [Instr.op])
  | _ => simp [instrStatus]

/-- The step's status is MalformedCommand exactly for the commands that R93 lists. -/
theorem stepStatus_eq_malformedCommand_iff (s : State) : stepStatus s = .malformedCommand ↔ RejectedCommand s.cmd := by
  by_cases hlt : (opField s.cmd).toNat < 14
  · rw [← not_iff_not, ← exists_decode_eq_ok_iff hlt]
    cases hd : decode s.cmd with
    | ok i =>
      rw [stepStatus_of_decode_eq_ok hd]
      rw [← op_of_decode_eq_ok hd] at hlt
      simpa using instrStatus_ne_malformedCommand hlt (wellFormed_of_decode_eq_ok hd) s
    | error e => simp [stepStatus_of_decode_eq_error hd]
  · have hop : 14 ≤ (opField s.cmd).toNat := by omega
    refine iff_of_true ?_ (rejectedCommand_of_reserved_op hop)
    exact ((step_answersWith s).eq_fault_iff (by decide)).1 (step_of_reserved_op hop)

/-- Settles O23: the step answers MalformedCommand when that is its status. -/
theorem malformedCommandExactlyWhen : Obligations.MalformedCommandExactlyWhen := fun s =>
  ((step_answersWith s).eq_fault_iff (g := .malformedCommand) (by decide)).trans (stepStatus_eq_malformedCommand_iff s)

end Sys2Proof.Machine
end

/-! PROOFS. The order of the faults (60_exceptions.md R96): the reference's three conditions, which are read off the
numbers of CMD, A and B, are those of the step's status. -/
section
namespace Sys2Proof.Machine

/-! ### Slices as fields -/

/-- A slice of a word's number is a field of the word. -/
theorem sliceNat_eq_iff {w : Nat} (v : BitVec w) {hi lo k : Nat} (hk : k < 2 ^ (hi + 1 - lo)) :
    sliceNat v.toNat hi lo = k ↔ v.extractLsb' lo (hi + 1 - lo) = BitVec.ofNat (hi + 1 - lo) k := by
  rw [← BitVec.toNat_inj, BitVec.extractLsb'_toNat, Nat.shiftRight_eq_div_pow, BitVec.toNat_ofNat, Nat.mod_eq_of_lt hk,
    sliceNat]

theorem opField_toNat (c : Cmd) : (opField c).toNat = c.toNat % 16 := by
  rw [opField, BitVec.extractLsb'_toNat]
  rfl

/-- The number of an accepted word ends in the OP of its instruction. -/
theorem toNat_mod_of_decode_eq_ok {c : Cmd} {i : Instr} (h : decode c = .ok i) : c.toNat % 16 = i.op.toNat := by
  rw [op_of_decode_eq_ok h, opField_toNat]

theorem two_le_sliceNat_prin_iff (c : Cmd) :
    2 ≤ sliceNat c.toNat 11 10 ↔ prinField c = 2#2 ∨ prinField c = 3#2 := by
  have hfield : ∀ f : BitVec 2, 2 ≤ f.toNat ↔ f = 2#2 ∨ f = 3#2 := by decide
  rw [← hfield, prinField, BitVec.extractLsb'_toNat, Nat.shiftRight_eq_div_pow, sliceNat]

theorem cache_bit_eq_zero_iff (c : Cmd) : c.extractLsb' 12 1 = 0#1 ↔ cacheField c = false := by
  have hbit : ∀ f : BitVec 1, f = 0#1 ↔ (f == 1#1) = false := by decide
  rw [cacheField, BitVec.getLsbD_eq_extractLsb', hbit]

/-! ### The bits that ATTR.NEXT refuses -/

theorem anySet_or (v m n : Word) : anySet v (m ||| n) = (anySet v m || anySet v n) := by
  rw [Bool.eq_iff_iff, Bool.or_eq_true, anySet_iff, anySet_iff, anySet_iff, BitVec.and_or_distrib_left, ne_eq,
    BitVec.or_eq_zero_iff, not_and_or]

theorem anySet_twoPow (v : Word) {k : Nat} (hk : BitVec.twoPow 64 k ≠ 0#64) :
    anySet v (BitVec.twoPow 64 k) = v.getLsbD k := by
  rw [anySet, BitVec.and_twoPow]
  cases v.getLsbD k <;> simp [hk]

/-- R94 names the refused bits one by one: X, W, R, U, A and D. -/
theorem anySet_nextLevelRefused (v : Word) : anySet v NEXT_LEVEL_REFUSED =
    (v.getLsbD 3 || v.getLsbD 2 || v.getLsbD 1 || v.getLsbD 4 || v.getLsbD 6 || v.getLsbD 7) := by
  have hbits : NEXT_LEVEL_REFUSED = BitVec.twoPow 64 3 ||| BitVec.twoPow 64 2 ||| BitVec.twoPow 64 1 |||
      BitVec.twoPow 64 4 ||| BitVec.twoPow 64 6 ||| BitVec.twoPow 64 7 := by decide
  simp (disch := decide) only [hbits, anySet_or, anySet_twoPow]

/-! ### The three conditions -/

/-- The reference's MalformedCommand is the list of R93. -/
theorem malformedCommand_iff (q : Request) : q.malformedCommand = true ↔ RejectedCommand q.cmd := by
  have hmask {n : Nat} (hop : q.cmd.toNat % 16 = n) : usedMask (opField q.cmd) = usedMask (BitVec.ofNat 4 n) := by
    rw [opField_of_toNat ((opField_toNat q.cmd).trans hop)]
  rw [Request.malformedCommand]
  split
  case h_1 hop | h_2 hop =>
    simp (disch := decide) [rejectedCommand_of_level (hmask hop), levelField, sliceNat_eq_iff]
  case h_3 hop | h_4 hop | h_5 hop =>
    simp (disch := decide) [rejectedCommand_of_prot (hmask hop), permField, two_le_sliceNat_prin_iff, sliceNat_eq_iff,
      or_assoc]
  case h_6 hop | h_7 hop =>
    exact iff_of_true rfl (rejectedCommand_of_reserved_op (by simp [opField_toNat, hop]))
  case h_8 h0 h1 h8 h9 hA hE hF =>
    rw [← opField_toNat] at *
    have hplain : ∀ op : BitVec 4, op.toNat ≠ 0 → op.toNat ≠ 1 → op.toNat ≠ 8 → op.toNat ≠ 9 → op.toNat ≠ 10 →
      op.toNat ≠ 14 → op.toNat ≠ 15 → op.toNat < 14 ∧ usedMask op = 0#32 := by decide
    obtain ⟨hlt, hused⟩ := hplain _ h0 h1 h8 h9 hA hE hF
    simp (disch := decide) [rejectedCommand_of_plain hlt hused, sliceNat_eq_iff]

/-- The reference's MalformedOperand is that of the instruction. -/
theorem malformedOperand_iff {s : State} {i : Instr} (hd : decode s.cmd = .ok i) :
    s.request.malformedOperand = true ↔ instrStatus i s = .malformedOperand := by
  rw [Request.malformedOperand, State.request_cmd, toNat_mod_of_decode_eq_ok hd]
  cases i with
  | vpn l | ppn l =>
    have hl : l.wellFormed = true := wellFormed_of_decode_eq_ok hd
    simp (disch := decide) [Instr.op, instrStatus, hl, sliceNat_eq_iff, canonicalVa, validPa]
  | voff | poff | attrLeaf | attrNext | satpMake | pteMake =>
    simp (disch := decide) [Instr.op, instrStatus, sliceNat_eq_iff, canonicalVa, validPa, flagsOnly, pageAligned,
      anySet_nextLevelRefused, not_and_or, or_assoc, -not_and]
  | permRm p | permAdd p | permTest p | isLeaf | isPresent | ptePa | reservedE rest | reservedF rest =>
    simp [Instr.op, instrStatus]

/-- Among the words that PERM.* accepts, those whose prot is not write.user's are UnsupportedCombination (R95). -/
theorem prot_slices_iff {f : Prot → Instr} (hf : TakesProt f) {c : Cmd} {p : Prot} (hd : decode c = .ok (f p)) :
    (!(sliceNat c.toNat 9 8 == 1 && sliceNat c.toNat 11 10 == 1 && sliceNat c.toNat 12 12 == 0)) = true ↔
      protStatus p = .unsupportedCombination := by
  have hwf : p.wellFormed = true := by
    obtain rfl | rfl | rfl := hf <;> exact wellFormed_of_decode_eq_ok hd
  have hp : protField c = p := by rw [← encode_of_decode_eq_ok hd, protField_encode hf]
  have hwriteUser : p = writeUser ↔ permField c = 1#2 ∧ prinField c = 1#2 ∧ cacheField c = false :=
    hp ▸ protField_eq_iff
  rw [protStatus_eq_unsupported, ne_eq, hwriteUser, permField, prinField, ← cache_bit_eq_zero_iff]
  simp (disch := decide) [hwf, sliceNat_eq_iff, not_and_or, or_assoc, -not_and]

/-- The reference's UnsupportedCombination is that of the instruction. -/
theorem unsupported_iff {s : State} {i : Instr} (hd : decode s.cmd = .ok i) :
    s.request.unsupported = true ↔ instrStatus i s = .unsupportedCombination := by
  rw [Request.unsupported, State.request_cmd, toNat_mod_of_decode_eq_ok hd]
  cases i with
  | permRm p => exact prot_slices_iff (.inl rfl) hd
  | permAdd p => exact prot_slices_iff (.inr (.inl rfl)) hd
  | permTest p => exact prot_slices_iff (.inr (.inr rfl)) hd
  | vpn l | ppn l =>
    have hl : l.wellFormed = true := wellFormed_of_decode_eq_ok hd
    simp [Instr.op, instrStatus, hl]
  | _ => simp [Instr.op, instrStatus]

theorem not_malformedOperand_and_unsupported (q : Request) :
    ¬ (q.malformedOperand = true ∧ q.unsupported = true) := by
  rintro ⟨hoperand, hunsupported⟩
  rw [Request.unsupported] at hunsupported
  split at hunsupported
  case h_1 hop | h_2 hop | h_3 hop => simp [Request.malformedOperand, hop] at hoperand
  case h_4 => cases hunsupported

/-- The status of the step is the first of the reference's conditions that holds. -/
theorem stepStatus_eq (s : State) : stepStatus s =
    if s.request.malformedCommand then .malformedCommand else if s.request.malformedOperand then .malformedOperand
    else if s.request.unsupported then .unsupportedCombination else .ok := by
  have hcommand : s.request.malformedCommand = true ↔ stepStatus s = .malformedCommand :=
    (malformedCommand_iff s.request).trans (stepStatus_eq_malformedCommand_iff s).symm
  cases hd : decode s.cmd with
  | error e => rw [if_pos (hcommand.2 (stepStatus_of_decode_eq_error hd)), stepStatus_of_decode_eq_error hd]
  | ok i =>
    simp only [hcommand, malformedOperand_iff hd, unsupported_iff hd, stepStatus_of_decode_eq_ok hd]
    cases instrStatus i s <;> rfl

/-- Settles O26: the step answers with its status, and only PERM.*, which checks no operand, is unsupported. -/
theorem oneStatusInPriorityOrder : Obligations.OneStatusInPriorityOrder := by
  refine ⟨fun s => ?_, not_malformedOperand_and_unsupported⟩
  obtain ⟨v, hstep, -⟩ := step_answersWith s
  refine ⟨v, hstep.trans ?_⟩
  rw [stepStatus_eq]
  split_ifs <;> rfl

end Sys2Proof.Machine
end

/-! PROOFS. Reset and hazards (70_reset_and_hazards.md R106): a request drives every port that the step reads, so the
state it is presented to, reset or not, has no part in the response. -/
section
namespace Sys2Proof.Machine

/-- A request has one response, whatever the ports held before it was presented. -/
theorem exists_response_forall_serve (q : Request) :
    ∃ x : Response, ∀ s : State, serve q s = .next ((s.present q).answered x.r x.st) := by
  obtain ⟨f, hstep⟩ := stepIsFunctionOfInputs
  exact ⟨f q.cmd q.a q.b, fun s => hstep (s.present q)⟩

/-- Settles O38: the one response of the request is its response from reset and from `s`. -/
theorem firstRequestAnsweredLikeAnyOther : Obligations.FirstRequestAnsweredLikeAnyOther := by
  intro q s
  obtain ⟨x, hserve⟩ := exists_response_forall_serve q
  exact ⟨x, hserve State.reset, hserve s⟩

end Sys2Proof.Machine
end

/-! PROOFS. Encoding and decoding (30_encoding.md R41 to R54): the word of a well-formed instruction decodes to it, a
word that decodes is the word of what it decodes to, and each word lies in the one row of its instruction. -/
section
namespace Sys2Proof

/-! ### The word of an instruction -/

theorem opField_encode (i : Instr) : opField (encode i) = i.op := opField_append _ _

theorem restField_encode (i : Instr) : restField (encode i) = i.upperBits := restField_append _ _

/-- A PERM.* word sets no bit outside OP and its prot, whatever the prot (30_encoding.md R46). -/
theorem hasUnusedBits_encode_of_takesProt {f : Prot → Instr} (hf : TakesProt f) (p : Prot) :
    hasUnusedBits (encode (f p)) = false := by
  obtain ⟨perm, prin, cache⟩ := p
  obtain rfl | rfl | rfl := hf <;> cases perm <;> cases prin <;> cases cache <;> rfl

/-- The prot is read back, and it is the only check a PERM.* word can fail (30_encoding.md R54). -/
theorem decode_encode_of_takesProt {f : Prot → Instr} (hf : TakesProt f) {p : Prot} (hwf : p.wellFormed = true) :
    decode (encode (f p)) = .ok (f p) := by
  rw [decode_of_takesProt hf (opField_encode (f p)), decodeProt_eq_ok, protField_encode hf]
  exact ⟨hasUnusedBits_encode_of_takesProt hf p, hwf, rfl⟩

/-- A reserved OP is recognised before any other bit, and CMD[31:4] is kept (30_encoding.md R49). -/
theorem decode_of_op_E {c : Cmd} (h : opField c = 0xE#4) : decode c = .ok (.reservedE (restField c)) := by
  unfold decode
  rw [h]
  rfl

theorem decode_of_op_F {c : Cmd} (h : opField c = 0xF#4) : decode c = .ok (.reservedF (restField c)) := by
  unfold decode
  rw [h]
  rfl

theorem decode_encode {i : Instr} (hwf : i.wellFormed = true) : decode (encode i) = .ok i := by
  cases i with
  | vpn l | ppn l =>
    cases l with
    | reserved => exact absurd hwf (by decide)
    | _ => rfl
  | permRm p => exact decode_encode_of_takesProt (.inl rfl) hwf
  | permAdd p => exact decode_encode_of_takesProt (.inr (.inl rfl)) hwf
  | permTest p => exact decode_encode_of_takesProt (.inr (.inr rfl)) hwf
  | reservedE rest =>
    rw [decode_of_op_E (opField_encode _), restField_encode, Instr.upperBits]
  | reservedF rest =>
    rw [decode_of_op_F (opField_encode _), restField_encode, Instr.upperBits]
  | _ => rfl

/-- Settles O18: the fields of each row are read back from its word. -/
theorem decodeOfEncode : Obligations.DecodeOfEncode := fun _ hwf => decode_encode hwf

/-- Settles O19: the decoder accepts no reserved field value and loses no bit. -/
theorem encodeOfDecode : Obligations.EncodeOfDecode := fun _ _ h =>
  ⟨wellFormed_of_decode_eq_ok h, encode_of_decode_eq_ok h⟩

/-! ### The row of an instruction -/

/-- The mask of an OP value: its two reserved values fix OP alone, and every other one all but USED_MASK
(30_encoding.md R47, R49). -/
def rowMask (op : BitVec 4) : Cmd := if op.toNat < 14 then ~~~usedMask op else 0xF#32

/-- The row of the opcode table that an instruction's mnemonic and OP belong to. -/
def Instr.row (i : Instr) : OpcodeRow := ⟨i.mnemonic, i.op.setWidth 32, rowMask i.op⟩

/-- The table lists its rows in the order of OP. -/
theorem opcodeTable_getElem?_op (i : Instr) : opcodeTable[i.op.toNat]? = some i.row := by
  cases i <;> simp [Instr.row, Instr.mnemonic, Instr.op, rowMask, usedMask, opcodeTable]

theorem row_mem_opcodeTable (i : Instr) : i.row ∈ opcodeTable := List.mem_of_getElem? (opcodeTable_getElem?_op i)

/-- Under the mask of OP a word is its OP. -/
theorem and_opMask (c : Cmd) : c &&& 0xF#32 = (opField c).setWidth 32 := by
  refine BitVec.eq_of_getLsbD_eq fun k hk => ?_
  rw [show (0xF#32) = fieldMask 0 4 by decide, BitVec.getLsbD_and, getLsbD_fieldMask hk, BitVec.getLsbD_setWidth,
    opField, BitVec.getLsbD_extractLsb', Nat.zero_add]
  simp [hk, Bool.and_comm]

/-- An accepted word has no unused bit, so under the mask of its row it is its OP. -/
theorem and_rowMask_encode {i : Instr} (hwf : i.wellFormed = true) :
    encode i &&& rowMask i.op = i.op.setWidth 32 := by
  by_cases hop : i.op.toNat < 14
  · rw [rowMask, if_pos hop]
    refine opField_eq_and_not_hasUnusedBits_iff.1 ⟨opField_encode i, ?_⟩
    by_contra hused
    have hreject := decode_of_hasUnusedBits (by rwa [opField_encode]) (Bool.eq_true_of_not_eq_false hused)
    exact absurd ((decode_encode hwf).symm.trans hreject) (by simp)
  · rw [rowMask, if_neg hop, and_opMask, opField_encode]

theorem row_covers_encode {i : Instr} (hwf : i.wellFormed = true) : i.row.covers (encode i) = true :=
  beq_iff_eq.2 (and_rowMask_encode hwf)

/-- A word's bits under the masks of two rows that cover it are those of both rows' matches. -/
theorem matchBits_and_masks_of_covers {x y : OpcodeRow} {c : Cmd} (hx : x.covers c = true) (hy : y.covers c = true) :
    x.matchBits &&& (x.mask &&& y.mask) = y.matchBits &&& (x.mask &&& y.mask) := by
  rw [← beq_iff_eq.1 hx, ← beq_iff_eq.1 hy]
  ac_rfl

/-- No two rows of the table cover one word. -/
theorem row_unique {x y : OpcodeRow} {c : Cmd} (hx : x ∈ opcodeTable) (hy : y ∈ opcodeTable) (hxc : x.covers c = true)
    (hyc : y.covers c = true) : y = x := by
  have : Std.Symm fun x y : OpcodeRow =>
      x.matchBits &&& (x.mask &&& y.mask) ≠ y.matchBits &&& (x.mask &&& y.mask) :=
    ⟨fun x y h hyx => h (by rw [BitVec.and_comm x.mask, hyx])⟩
  by_contra hne
  exact opcodeTable_pairwise_disjoint.forall hx hy (Ne.symm hne) (matchBits_and_masks_of_covers hxc hyc)

/-- Settles O20: the row of its OP and mnemonic covers the word, and rows are disjoint. -/
theorem everyInstructionLiesInItsRow : Obligations.EveryInstructionLiesInItsRow := fun i hwf =>
  ⟨i.row, row_mem_opcodeTable i, row_covers_encode hwf, rfl,
    fun _ hother hcovers => row_unique (row_mem_opcodeTable i) hother (row_covers_encode hwf) hcovers⟩

/-- Settles O16: the ten words are written out. -/
theorem sampleWordsDecode : Obligations.SampleWordsDecode := by
  unfold Obligations.SampleWordsDecode
  decide

/-- A table word that fits CMD is decoded as the word itself. -/
theorem decode_of_decodeTableWord {w : Nat} {i : Instr} (hw : w < 2 ^ 32) (h : decodeTableWord 32 w = some i) :
    decode (BitVec.ofNat 32 w) = .ok i := by
  rw [decodeTableWord, Nat.mod_eq_of_lt hw, if_pos hw] at h
  cases hd : decode (BitVec.ofNat 32 w) with
  | ok j => rw [hd] at h; cases h; rfl
  | error e => rw [hd] at h; cases h

end Sys2Proof

namespace Sys2Proof.Machine

/-- Settles O17: `step` is defined by cases on what the decoder says. -/
theorem stepRunsDecodedInstruction : Obligations.StepRunsDecodedInstruction := by
  refine ⟨fun _ _ => step_of_decode_eq_ok, fun _ _ => step_of_decode_eq_error, fun s w i hw h => ?_⟩
  have hport : s.withFetchWord 32 w = { s with cmd := BitVec.ofNat 32 w } := by
    rw [State.withFetchWord, Nat.mod_eq_of_lt hw]
  rw [hport]
  exact step_of_decode_eq_ok (decode_of_decodeTableWord hw h)

end Sys2Proof.Machine
end

/-! PROOFS. The results (40_layout_codec.md R60 to R69, 41_permission_algebra.md R75 to R77, 42_translation_control.md
R85): what each operation computes in shifts and masks is the number that the second reading computes, so the step
answers what the second reading expects. -/
section
namespace Sys2Proof.Machine

/-! ### Results -/

/-- The field of an address that a LEVEL selects. -/
def selectedField (sel : Option (Nat × Nat)) (a : Word) : Word :=
  match sel with
  | some (lo, len) => bitField lo len a
  | none => 0#64

/-- What an instruction that completes answers on R. -/
def instrResult (i : Instr) (s : State) : Word :=
  match i with
  | .vpn l => selectedField (vpnField l) s.a
  | .ppn l => selectedField (ppnField l) s.a
  | .voff | .poff => s.a &&& 0xFFF#64
  | .attrLeaf => s.a ||| 0x3F#64
  | .attrNext => s.a ||| 0x21#64
  | .isLeaf => zextBool (anySet s.a 0xE#64)
  | .isPresent => s.a &&& 1#64
  | .permRm _ => s.a &&& ~~~4#64
  | .permAdd _ => s.a ||| 4#64
  | .permTest _ => if s.a.getLsbD 2 then 1#64 else 0#64
  | .satpMake => (8#64 <<< 60) ||| (s.a >>> 12)
  | .pteMake => ((s.a >>> 12) <<< 10) ||| s.b
  | .ptePa => entryAddress s.a
  | .reservedE _ | .reservedF _ => 0#64

theorem checkStatus_eq_ok {c : Bool} : checkStatus c = .ok ↔ c = true := by
  cases c <;> simp [checkStatus]

theorem checkOperands_of_status_ok {c : Bool} (h : checkStatus c = .ok) (v : Word) (s : State) :
    checkOperands c v s = .next (s.answered v 0#2) := by
  cases c
  · cases h
  · rfl

theorem eq_writeUser_of_protStatus_ok {p : Prot} (h : protStatus p = .ok) : p = writeUser := by
  unfold protStatus at h
  split_ifs at h with _ hp
  exact hp

/-- An instruction whose status is OK completes with its result. -/
theorem exec_of_status_ok {i : Instr} {s : State} (h : instrStatus i s = .ok) :
    exec i s = .next (s.answered (instrResult i s) 0#2) := by
  cases i with
  | vpn l | ppn l =>
    cases l with
    | reserved => cases h
    | _ => exact checkOperands_of_status_ok h _ s
  | voff => exact (exec_voff s).trans (checkOperands_of_status_ok h _ s)
  | poff => exact (exec_poff s).trans (checkOperands_of_status_ok h _ s)
  | permRm p =>
    obtain rfl := eq_writeUser_of_protStatus_ok h
    exact exec_permRm_writeUser s
  | permAdd p =>
    obtain rfl := eq_writeUser_of_protStatus_ok h
    exact exec_permAdd_writeUser s
  | permTest p =>
    obtain rfl := eq_writeUser_of_protStatus_ok h
    exact exec_permTest_writeUser s
  | isLeaf => exact exec_isLeaf s
  | isPresent => exact exec_isPresent s
  | ptePa => exact exec_ptePa s
  | reservedE rest | reservedF rest => cases h
  | attrLeaf | attrNext | satpMake | pteMake => exact checkOperands_of_status_ok h _ s

/-- Every instruction's answer: its status, and its result if that is OK (60_exceptions.md R91, R92). -/
theorem exec_eq (i : Instr) (s : State) :
    exec i s = .next (s.answered (if instrStatus i s = .ok then instrResult i s else 0#64) (instrStatus i s).code) := by
  split_ifs with h
  · rw [exec_of_status_ok h, h, Status.code]
  · obtain ⟨v, hexec, hv⟩ := exec_answersWith i s
    rw [hexec, hv h]

/-- What an instruction that completes has met and answered. -/
theorem of_exec_completes {i : Instr} {s : State} {v : Word} (h : exec i s = .next (s.answered v 0#2)) :
    instrStatus i s = .ok ∧ v = instrResult i s := by
  obtain ⟨hv, hst⟩ := next_answered_inj (h.symm.trans (exec_eq i s))
  have hok : instrStatus i s = .ok := (Status.code_injective (a₁ := .ok) hst).symm
  exact ⟨hok, by rw [hv, if_pos hok]⟩

/-! ### Results as numbers -/

/-- The bits a mask selects and the bits it does not, as numbers. -/
theorem and_toNat_add_and_not_toNat (v m : Word) : (v &&& m).toNat + (v &&& ~~~m).toNat = v.toNat := by
  have hdisjoint : (v &&& m) &&& (v &&& ~~~m) = 0#64 := by
    ext i
    simp +contextual
  have hall : (v &&& m) ||| (v &&& ~~~m) = v := by
    rw [← BitVec.and_or_distrib_left, BitVec.or_not_self, BitVec.and_allOnes]
  rw [← BitVec.toNat_add_of_and_eq_zero hdisjoint, BitVec.add_eq_or_of_and_eq_zero _ _ hdisjoint, hall]

/-- Clearing what was set is clearing. -/
theorem or_and_not (v m : Word) : (v ||| m) &&& ~~~m = v &&& ~~~m := by
  rw [BitVec.and_or_distrib_right, BitVec.and_not_self]
  exact BitVec.or_zero

/-- Setting bits adds those that were clear. -/
theorem or_toNat (v m : Word) : (v ||| m).toNat = m.toNat + (v &&& ~~~m).toNat := by
  have hset : (v ||| m) &&& m = m := by
    ext i
    simp +contextual
  rw [← and_toNat_add_and_not_toNat (v ||| m) m, hset, or_and_not]

/-- A word with nothing from bit `k` up is a number below 2^k. -/
theorem toNat_lt_of_ushiftRight_eq_zero {v : Word} {k : Nat} (h : v >>> k = 0#64) : v.toNat < 2 ^ k := by
  rw [← BitVec.toNat_inj, ushiftRight_toNat] at h
  exact (Nat.div_eq_zero_iff.1 h).resolve_left (by positivity)

theorem and_pageOffset_toNat (v : Word) : (v &&& 0xFFF#64).toNat = v.toNat % 2 ^ 12 :=
  and_lowMask_toNat v 12 (by decide)

theorem and_flags_toNat (v : Word) : (v &&& 0x3FF#64).toNat = v.toNat % 2 ^ 10 :=
  and_lowMask_toNat v 10 (by decide)

theorem bitField_toNat (lo len : Nat) (h : len ≤ 64) (v : Word) :
    (bitField lo len v).toNat = v.toNat / 2 ^ lo % 2 ^ len := by
  rw [bitField_eq, and_lowMask_toNat _ _ h, ushiftRight_toNat]

/-- A one-bit slice is the bit. -/
theorem sliceNat_bit (v : Word) (k : Nat) : sliceNat v.toNat k k = if v.getLsbD k then 1 else 0 := by
  have hlt : sliceNat v.toNat k k < 2 := lt_of_lt_of_eq (Nat.mod_lt _ (by positivity)) (by simp)
  have hone : sliceNat v.toNat k k = 1 ↔ v.getLsbD k = true := by
    simp [sliceNat, BitVec.getLsbD, Nat.testBit_eq_decide_div_mod_eq]
  split_ifs with hbit
  · exact hone.2 hbit
  · have := mt hone.1 hbit
    omega

theorem sliceNat_bit_eq_one_iff (v : Word) (k : Nat) : sliceNat v.toNat k k = 1 ↔ v.getLsbD k = true := by
  simp [sliceNat_bit]

/-- A[3:1] holds X, W and R. -/
theorem sliceNat_xwr_eq_zero_iff (v : Word) : sliceNat v.toNat 3 1 = 0 ↔ anySet v 0xE#64 = false := by
  rw [show (0xE#64) = BitVec.twoPow 64 3 ||| BitVec.twoPow 64 2 ||| BitVec.twoPow 64 1 by decide]
  simp (disch := decide) only [anySet_or, anySet_twoPow]
  simp [BitVec.getLsbD, Nat.testBit_eq_decide_div_mod_eq, sliceNat]
  omega

theorem entryAddress_toNat (e : Word) : (entryAddress e).toNat = sliceNat e.toNat 53 10 * 4096 := by
  rw [entryAddress, BitVec.toNat_shiftLeft, bitField_toNat _ _ (by decide)]
  simp [PTE_PPN_SHIFT, PTE_PPN_BIT, PAGE_OFFSET_BIT, Nat.shiftLeft_eq, sliceNat]
  omega

/-- PTE.MAKE's entry is the frame number above the flags. -/
theorem entry_toNat (a : Word) {b : Word} (hb : b >>> 10 = 0#64) :
    (((a >>> 12) <<< 10) ||| b).toNat = a.toNat / 2 ^ 12 * 2 ^ 10 + b.toNat := by
  have hframe : (a >>> 12).toNat < 2 ^ 54 := by
    rw [ushiftRight_toNat]
    omega
  rw [shiftLeft_or_toNat _ _ 10 (by decide) (toNat_lt_of_ushiftRight_eq_zero hb) hframe, ushiftRight_toNat]

theorem levelNumber_of_wellFormed {l : Level} (h : l.wellFormed = true) : LevelNumber l l.field.toNat := by
  cases l with
  | l0 => exact .inl ⟨rfl, rfl⟩
  | l1 => exact .inr (.inl ⟨rfl, rfl⟩)
  | l2 => exact .inr (.inr ⟨rfl, rfl⟩)
  | reserved => exact absurd h (by decide)

/-- A VPN or PPN word holds its LEVEL as CMD[5:4]. -/
theorem sliceNat_level_encode {f : Level → Instr} (hf : f = .vpn ∨ f = .ppn) (l : Level) :
    sliceNat (encode (f l)).toNat 5 4 = l.field.toNat := by
  obtain rfl | rfl := hf <;> cases l <;> rfl

theorem levelNumber_of_decode_eq_ok {f : Level → Instr} (hf : f = .vpn ∨ f = .ppn) {c : Cmd} {l : Level}
    (hd : decode c = .ok (f l)) : LevelNumber l (sliceNat c.toNat 5 4) := by
  rw [← encode_of_decode_eq_ok hd, sliceNat_level_encode hf]
  refine levelNumber_of_wellFormed ?_
  obtain rfl | rfl := hf <;> exact wellFormed_of_decode_eq_ok hd

theorem and_four_toNat (v : Word) : (v &&& 4#64).toNat = if v.getLsbD 2 then 4 else 0 := by
  rw [show v &&& 4#64 = if v.getLsbD 2 then 4#64 else 0#64 from BitVec.and_twoPow v 2]
  split_ifs <;> rfl

theorem and_not_four_toNat (v : Word) :
    (v &&& ~~~4#64).toNat = if v.getLsbD 2 then v.toNat - 4 else v.toNat := by
  have hsplit := and_toNat_add_and_not_toNat v 4#64
  rw [and_four_toNat] at hsplit
  split_ifs at hsplit ⊢ <;> omega

theorem or_four_toNat (v : Word) : (v ||| 4#64).toNat = if v.getLsbD 2 then v.toNat else v.toNat + 4 := by
  have hsplit := and_toNat_add_and_not_toNat v 4#64
  rw [and_four_toNat] at hsplit
  rw [or_toNat, show (4#64).toNat = 4 from rfl]
  split_ifs at hsplit ⊢ <;> omega

/-- The SATP value is the mode above the frame number. -/
theorem satpValue_toNat (a : Word) : ((8#64 <<< 60) ||| (a >>> 12)).toNat = 8 * 2 ^ 60 + a.toNat / 2 ^ 12 := by
  have hframe : (a >>> 12).toNat < 2 ^ 60 := by
    rw [ushiftRight_toNat]
    omega
  rw [shiftLeft_or_toNat _ _ 60 (by decide) hframe (by decide), ushiftRight_toNat]
  rfl

/-- The result in shifts and masks is the number of the second reading. -/
theorem instrResult_toNat {s : State} {i : Instr} (hd : decode s.cmd = .ok i) (hok : instrStatus i s = .ok) :
    (instrResult i s).toNat = s.request.resultNat := by
  rw [Request.resultNat, State.request_cmd, toNat_mod_of_decode_eq_ok hd]
  cases i with
  | vpn l =>
    have hl := levelNumber_of_decode_eq_ok (.inl rfl) hd
    rw [instrResult, vpnField_of_levelNumber hl]
    exact bitField_toNat _ 9 (by decide) s.a
  | ppn l =>
    have hl := levelNumber_of_decode_eq_ok (.inr rfl) hd
    generalize sliceNat s.cmd.toNat 5 4 = n at hl
    obtain ⟨rfl, rfl⟩ | ⟨rfl, rfl⟩ | ⟨rfl, rfl⟩ := hl <;> exact bitField_toNat _ _ (by decide) s.a
  | voff | poff => exact and_pageOffset_toNat s.a
  | attrLeaf | attrNext => rfl
  | isLeaf =>
    show (zextBool (anySet s.a 0xE#64)).toNat = if sliceNat s.a.toNat 3 1 = 0 then 0 else 1
    simp only [sliceNat_xwr_eq_zero_iff]
    cases anySet s.a 0xE#64 <;> rfl
  | isPresent => exact and_lowMask_toNat s.a 1 (by decide)
  | permRm p =>
    refine (and_not_four_toNat s.a).trans ?_
    simp only [← sliceNat_bit_eq_one_iff]
    rfl
  | permAdd p =>
    refine (or_four_toNat s.a).trans ?_
    simp only [← sliceNat_bit_eq_one_iff]
    rfl
  | permTest p =>
    show (if s.a.getLsbD 2 then 1#64 else 0#64).toNat = sliceNat s.a.toNat 2 2
    rw [sliceNat_bit]
    split_ifs <;> rfl
  | satpMake => exact satpValue_toNat s.a
  | pteMake =>
    obtain ⟨-, -, hflags⟩ := (pteMake_check_iff s.a s.b).1 (checkStatus_eq_ok.1 hok)
    exact entry_toNat s.a hflags
  | ptePa => exact entryAddress_toNat s.a
  | reservedE rest | reservedF rest => cases hok

/-! ### The step and the second reading -/

/-- The response of the second reading, by the status of the step. -/
theorem expected_eq (s : State) : s.request.expected =
    ⟨if stepStatus s = .ok then BitVec.ofNat 64 s.request.resultNat else 0#64, (stepStatus s).code⟩ := by
  rw [stepStatus_eq, Request.expected]
  split_ifs <;> simp_all [Status.code]

/-- Settles O30: the status is that of the second reading, and where it is OK the word was accepted and the result is
that number. -/
theorem stepAgreesWithReference : Obligations.StepAgreesWithReference := by
  intro s
  rw [expected_eq]
  cases hd : decode s.cmd with
  | error e =>
    rw [step_of_decode_eq_error hd, stepStatus_of_decode_eq_error hd]
    rfl
  | ok i =>
    rw [step_of_decode_eq_ok hd, exec_eq, stepStatus_of_decode_eq_ok hd]
    split_ifs with hok
    · rw [← instrResult_toNat hd hok, BitVec.ofNat_toNat, BitVec.setWidth_eq]
      rfl
    · rfl

end Sys2Proof.Machine
end

/-! PROOFS. Requests (10_state.md R15, R29, 20_memory.md R32, R38, 60_exceptions.md R103): the step is one equation, so
a response depends on its own request alone, a step from an answered state gives that state, and outputs stay
coherent. -/
section
namespace Sys2Proof.Machine

/-! ### One request and many -/

theorem step_eq (s : State) : step s = .next { s with response := some s.request.expected } :=
  stepAgreesWithReference s

theorem serve_eq (q : Request) (s : State) :
    serve q s = .next { s.present q with response := some q.expected } :=
  step_eq (s.present q)

theorem serveAll_eq (qs : List Request) (s : State) : serveAll qs s = qs.map fun q => some q.expected := by
  induction qs generalizing s with
  | nil => rfl
  | cons q qs ih => 
    rw [serveAll, serve_eq]
    exact congrArg _ (ih _)

/-- Settles O32: the step reads the input ports alone, and the second reading gives its response. -/
theorem eachRequestAnsweredAsIfAlone : Obligations.EachRequestAnsweredAsIfAlone := by
  refine ⟨serveAll_eq, fun q s => ⟨?_, step_eq _⟩⟩
  rw [pac, step_eq]
  rfl

/-- Settles O33: each response is the second reading's, wherever its request stands in the list. -/
theorem requestsCommute : Obligations.RequestsCommute := by
  intro q q' s x x' h
  rw [serveAll_eq] at h ⊢
  cases h
  exact ⟨rfl, Option.some_ne_none _, Option.some_ne_none _⟩

/-- Settles O34: the step keeps the inputs, and it reads nothing else. -/
theorem repeatedRequestChangesNothing : Obligations.RepeatedRequestChangesNothing := by
  intro s t h
  rw [step_eq] at h ⊢
  cases h
  rfl

/-- Settles O35: every instruction answers from A and B and replaces the response. -/
theorem instructionsWriteOnlyTheResponse : Obligations.InstructionsWriteOnlyTheResponse := by
  intro i s
  obtain ⟨f, hf⟩ := exec_answersFrom i
  exact ⟨f (s.a, s.b), hf s⟩

/-! ### The invariant -/

/-- The second reading gives a fault no value (60_exceptions.md R92). -/
theorem expected_r_of_fault {q : Request} (h : q.expected.st ≠ 0#2) : q.expected.r = 0#64 := by
  have hq : q.expected = _ := expected_eq (State.reset.present q)
  rw [hq] at h ⊢
  refine if_neg fun hok => h ?_
  rw [hok, Status.code]

/-- Settles O36: the step answers what the second reading expects of the inputs it keeps. -/
theorem stepKeepsCoherent : Obligations.StepKeepsCoherent := by
  intro s t _ h
  rw [step_eq] at h
  cases h
  refine ⟨fun x hx => ?_, fun x hx hst => ?_, ⟨rfl, rfl, rfl⟩, rfl⟩
  · cases hx
    rfl
  · cases hx
    exact expected_r_of_fault hst

/-- Settles O37: right after reset there is no response to speak of. -/
theorem resetIsCoherent : Obligations.ResetIsCoherent := by
  refine ⟨fun x hx => ?_, fun x hx => ?_, rfl⟩ <;> rw [State.reset_response] at hx <;> cases hx

end Sys2Proof.Machine
end

/-! PROOFS. The bounds of the results and the laws of the two algebras (40_layout_codec.md R70 to R71, R59;
41_permission_algebra.md R78 to R80): each is read off what an instruction that completes has met and answered. -/
section
namespace Sys2Proof.Machine

/-! ### Bounds -/

/-- A response is bare, or it is the result of an instruction that completes. -/
theorem response_cases {i : Instr} {s t : State} {x : Response} (h : exec i s = .next t) (hx : t.response = some x) :
    x.r = 0#64 ∨ (instrStatus i s = .ok ∧ x.r = instrResult i s) := by
  rw [exec_eq] at h
  cases h
  rw [State.answered_response] at hx
  cases hx
  split_ifs with hok
  · exact .inr ⟨hok, rfl⟩
  · exact .inl rfl

theorem bitField_toNat_lt {lo len : Nat} (h : len ≤ 64) (v : Word) : (bitField lo len v).toNat < 2 ^ len := by
  rw [bitField_toNat _ _ h]
  exact Nat.mod_lt _ (by positivity)

/-- Setting flags in a word of flags gives a word of flags. -/
theorem or_toNat_lt_of_flagsOnly {v m : Word} (hv : flagsOnly v = true) (hm : m >>> 10 = 0#64) :
    (v ||| m).toNat < 0x400 :=
  toNat_lt_of_ushiftRight_eq_zero (k := 10) ((ushiftRight_or hm v).trans ((flagsOnly_iff v).1 hv))

theorem zextBool_eq_zero_or_one (t : Bool) : zextBool t = 0#64 ∨ zextBool t = 1#64 := by
  cases t
  · exact .inl rfl
  · exact .inr rfl

/-- Settles O41: a fault answers 0, and each result is a field, a flag word, a bit or an entry's address. -/
theorem resultsStayInTheirFields : Obligations.ResultsStayInTheirFields := by
  intro i s t x h hx
  obtain hr | ⟨hok, hr⟩ := response_cases h hx
  · simp [hr]
  rw [hr]
  refine ⟨?vpn, ?ppn01, ?ppn2, ?offset, ?attr, ?predicate, ?pteMake, ?ptePa⟩
  case vpn =>
    rintro ⟨l, rfl⟩
    cases l with
    | reserved => cases hok
    | _ => exact bitField_toNat_lt (len := 9) (by decide) s.a
  case ppn01 =>
    rintro (rfl | rfl) <;> exact bitField_toNat_lt (len := 9) (by decide) s.a
  case ppn2 =>
    rintro rfl
    exact bitField_toNat_lt (len := 26) (by decide) s.a
  case offset =>
    have hlow : (s.a &&& 0xFFF#64).toNat < 0x1000 := by
      rw [and_pageOffset_toNat]
      exact Nat.mod_lt _ (by decide)
    rintro (rfl | rfl) <;> exact hlow
  case attr =>
    rintro (rfl | rfl)
    · exact or_toNat_lt_of_flagsOnly (checkStatus_eq_ok.1 hok) (by decide)
    · exact or_toNat_lt_of_flagsOnly (Bool.and_eq_true_iff.1 (checkStatus_eq_ok.1 hok)).1 (by decide)
  case predicate =>
    rintro (rfl | rfl | ⟨p, rfl⟩)
    · exact zextBool_eq_zero_or_one _
    · rw [instrResult, ← zextBool_anySet_one]
      exact zextBool_eq_zero_or_one _
    · exact zextBool_eq_zero_or_one _
  case pteMake =>
    rintro rfl
    obtain ⟨hpa, -, hflags⟩ := (pteMake_check_iff s.a s.b).1 (checkStatus_eq_ok.1 hok)
    rw [instrResult, entry_toNat s.a hflags]
    have := toNat_lt_of_ushiftRight_eq_zero hpa
    have := toNat_lt_of_ushiftRight_eq_zero hflags
    omega
  case ptePa =>
    rintro rfl
    rw [instrResult, entryAddress_toNat, sliceNat]
    omega

/-! ### The layout codec -/

/-- A word that has a bit of X, W and R is a leaf, any other is not. -/
theorem exec_isLeaf_of_anySet {s : State} {t : Bool} (h : anySet s.a 0xE#64 = t) :
    exec .isLeaf s = .next (s.answered (zextBool t) 0#2) := by
  rw [exec_isLeaf, h]

/-- Settles O42: the leaf preset has all of X, W and R, and ATTR.NEXT refuses a base that has one. -/
theorem compositionFixesLeafness : Obligations.CompositionFixesLeafness := by
  refine ⟨fun s v h => ?leaf, fun s v h => ?next⟩
  case leaf =>
    obtain ⟨-, rfl⟩ := of_exec_completes h
    refine exec_isLeaf_of_anySet (s := { s with a := _ }) ((anySet_iff _ _).2 ?_)
    rw [instrResult, BitVec.and_or_distrib_right, ne_eq, BitVec.or_eq_zero_iff]
    exact fun h => absurd h.2 (by decide)
  case next =>
    obtain ⟨⟨-, hbase⟩, rfl⟩ := of_exec_completes_of_checkOperands exec_attrNext (fun s => attrNext_check_iff s.a) h
    have hxwr : (s.a ||| 0x21#64) &&& 0xE#64 = 0#64 := by
      rw [BitVec.and_or_distrib_right, show (0xE#64) = 0xDE#64 &&& 0xE#64 by decide, ← BitVec.and_assoc, hbase]
      decide
    exact exec_isLeaf_of_and_eq (s := { s with a := _ }) hxwr

/-- The flags of an entry are those it was made with. -/
theorem entry_and_flags (a : Word) {b : Word} (hb : b >>> 10 = 0#64) :
    (((a >>> 12) <<< 10) ||| b) &&& 0x3FF#64 = b := by
  refine BitVec.eq_of_toNat_eq ?_
  rw [and_flags_toNat, entry_toNat a hb]
  have := toNat_lt_of_ushiftRight_eq_zero hb
  omega

/-- The address of an entry is the page it was made with. -/
theorem entryAddress_entry {a b : Word} (hpa : ValidPa a) (ha : a &&& 0xFFF#64 = 0#64) (hb : b >>> 10 = 0#64) :
    entryAddress (((a >>> 12) <<< 10) ||| b) = a := by
  refine BitVec.eq_of_toNat_eq ?_
  rw [entryAddress_toNat, entry_toNat a hb, sliceNat]
  have hlow : a.toNat % 2 ^ 12 = 0 := by rw [← and_pageOffset_toNat, ha]; rfl
  have := toNat_lt_of_ushiftRight_eq_zero hpa
  have := toNat_lt_of_ushiftRight_eq_zero hb
  omega

/-- Two words with the same flags agree under a mask of flags. -/
theorem and_eq_of_and_flags {e b m : Word} (h : e &&& 0x3FF#64 = b) (hm : 0x3FF#64 &&& m = m) : e &&& m = b &&& m := by
  rw [← h, BitVec.and_assoc, hm]

/-- Settles O43: the flags and the address are apart in an entry, and both tests read flags. -/
theorem pteMakeKeepsFlagsAndAddress : Obligations.PteMakeKeepsFlagsAndAddress := by
  intro s e h
  obtain ⟨⟨hpa, haligned, hb⟩, rfl⟩ :=
    of_exec_completes_of_checkOperands exec_pteMake (fun s => pteMake_check_iff s.a s.b) h
  have hflags := entry_and_flags s.a hb
  refine ⟨hflags, ?_, fun v => ?_, fun v => ?_⟩
  · rw [exec_ptePa, entryAddress_entry hpa haligned hb]
  · simp only [exec_isLeaf, anySet, and_eq_of_and_flags hflags (m := 0xE#64) (by decide), Host.Outcome.next.injEq,
      State.answered_inj]
  · simp only [exec_isPresent, and_eq_of_and_flags hflags (m := 1#64) (by decide), Host.Outcome.next.injEq,
      State.answered_inj]

/-- PTE.MAKE's entry without its flags is the address without its page offset. -/
theorem entry_ushiftRight (a : Word) {b : Word} (hb : b >>> 10 = 0#64) :
    (((a >>> 12) <<< 10) ||| b) >>> 10 = a >>> 12 := by
  rw [ushiftRight_or hb]
  refine BitVec.eq_of_toNat_eq ?_
  have hlt := a.isLt
  simp [Nat.shiftRight_eq_div_pow, Nat.shiftLeft_eq]
  omega

/-- A field of the entry above its flags is a field of the address 2 bits higher up. -/
theorem extractLsb'_entry (a : Word) {b : Word} (hb : b >>> 10 = 0#64) (lo len : Nat) :
    (((a >>> 12) <<< 10) ||| b).extractLsb' (10 + lo) len = a.extractLsb' (12 + lo) len := by
  rw [← extractLsb'_ushiftRight, entry_ushiftRight a hb, extractLsb'_ushiftRight]

/-- Settles O45: the fields stand in the entry as in the address, which has nothing from bit 56 up. -/
theorem entryHoldsPpnFields : Obligations.EntryHoldsPpnFields := by
  intro s e h
  obtain ⟨⟨hpa, -, hb⟩, rfl⟩ :=
    of_exec_completes_of_checkOperands exec_pteMake (fun s => pteMake_check_iff s.a s.b) h
  refine ⟨extractLsb'_entry s.a hb 0 9, extractLsb'_entry s.a hb 9 9, extractLsb'_entry s.a hb 18 26, ?_⟩
  exact (extractLsb'_entry s.a hb 44 10).trans (extractLsb'_eq_zero_of_ushiftRight_eq_zero 10 hpa (by decide))

/-! ### The permission algebra -/

theorem eq_writeUser_of_permMask {p : Prot} {m : Word} (h : permMask p = some m) : p = writeUser ∧ m = 4#64 := by
  by_cases hp : p = writeUser
  · subst hp
    exact ⟨rfl, (Option.some.inj h).symm⟩
  · rw [permMask_of_ne hp] at h
    cases h

/-- Settles O47: the result differs from A in the mask's one bit alone. -/
theorem permLeavesOtherBits : Obligations.PermLeavesOtherBits := by
  intro i p s v m hi hm h k hk
  obtain ⟨rfl, rfl⟩ := eq_writeUser_of_permMask hm
  obtain ⟨-, rfl⟩ := of_exec_completes h
  obtain rfl | rfl := hi
  · rw [instrResult, BitVec.getLsbD_and, BitVec.getLsbD_not, hk]
    simpa using fun hbit => BitVec.lt_of_getLsbD hbit
  · rw [instrResult, BitVec.getLsbD_or, hk, Bool.or_false]

/-- Settles O48: the bit is clear already, or set already. -/
theorem permRmAndAddIdempotent : Obligations.PermRmAndAddIdempotent := by
  intro i p s v hi h
  obtain ⟨hok, rfl⟩ := of_exec_completes h
  obtain rfl | rfl := hi <;> obtain rfl := eq_writeUser_of_protStatus_ok hok
  · rw [exec_permRm_writeUser, instrResult, BitVec.and_assoc, BitVec.and_self]
  · rw [exec_permAdd_writeUser, instrResult, BitVec.or_assoc, BitVec.or_self]

theorem exec_permTest_of_getLsbD {s : State} {t : Bool} (h : s.a.getLsbD 2 = t) :
    exec (.permTest writeUser) s = .next (s.answered (zextBool t) 0#2) := by
  rw [exec_permTest_writeUser, h]
  rfl

/-- Clearing bit 2 changes nothing exactly when it is clear. -/
theorem and_not_four_eq_self_iff (v : Word) : v &&& ~~~4#64 = v ↔ v.getLsbD 2 = false := by
  have hsplit := and_toNat_add_and_not_toNat v 4#64
  rw [and_four_toNat] at hsplit
  constructor
  · intro hsame
    by_contra hset
    rw [hsame, if_pos (Bool.eq_true_of_not_eq_false hset)] at hsplit
    omega
  · intro hclear
    rw [hclear, if_neg (by decide), Nat.zero_add] at hsplit
    exact BitVec.eq_of_toNat_eq hsplit

/-- Settles O49: the three operations work on bit 2 of A. -/
theorem permTestAgreesWithRmAndAdd : Obligations.PermTestAgreesWithRmAndAdd := by
  intro p s rm add again hrm hadd hagain
  obtain ⟨hok, rfl⟩ := of_exec_completes hrm
  obtain rfl := eq_writeUser_of_protStatus_ok hok
  obtain ⟨-, rfl⟩ := of_exec_completes hadd
  obtain ⟨-, rfl⟩ := of_exec_completes hagain
  have hrestored :
      instrResult (.permRm writeUser) { s with a := instrResult (.permAdd writeUser) s } = s.a &&& ~~~4#64 :=
    or_and_not s.a 4#64
  refine ⟨?_, ?_, hrestored, ?_⟩
  · exact exec_permTest_of_getLsbD (s := { s with a := _ }) (t := false) (by simp [instrResult])
  · exact exec_permTest_of_getLsbD (s := { s with a := _ }) (t := true) (by simp [instrResult])
  · rw [hrestored, and_not_four_eq_self_iff, exec_permTest_writeUser]
    cases s.a.getLsbD 2 <;> simp

end Sys2Proof.Machine
end

/-! PROOFS. The assembler (30_encoding.md R55, R56): a line of text stands for a well-formed operation of R48,
whose word the codec decodes. -/
section
namespace Sys2Proof.Machine

/-! ### What a line stands for -/

/-- A well-formed operation of R48, which the codec completes or faults by its operands and prot. -/
def IsOperation (i : Instr) : Prop := i.wellFormed = true ∧ i.op.toNat < 14

/-- A form whose lines stand for operations: for every level and prot that can be written. -/
def Form.IsSound : Form → Prop
  | .level f => ∀ l, l.wellFormed = true → IsOperation (f l)
  | .prot f => ∀ p, p.wellFormed = true → IsOperation (f p)
  | .one i | .two i | .pseudo i => IsOperation i

theorem isSound_of_mem_mnemonicForms : ∀ m ∈ mnemonicForms, m.2.IsSound := by
  simp +contextual [mnemonicForms, Form.IsSound, IsOperation, Instr.wellFormed, Instr.op]

theorem isSound_of_formOf {w : Text} {f : Form} (h : formOf w = some f) : f.IsSound := by
  obtain ⟨m, hm, rfl⟩ := Option.map_eq_some_iff.1 h
  exact isSound_of_mem_mnemonicForms m (List.mem_of_find?_eq_some hm)

theorem wellFormed_of_levelWord {w : Text} {l : Level} (h : levelWord w = some l) : l.wellFormed = true := by
  unfold levelWord at h
  split at h <;> cases h <;> rfl

theorem wellFormed_of_permLetter {c : Char} {p : Perm} (h : permLetter c = some p) : p.wellFormed = true := by
  unfold permLetter at h
  split_ifs at h <;> cases h <;> rfl

theorem wellFormed_of_prinLetter {c : Char} {q : Prin} (h : prinLetter c = some q) : q.wellFormed = true := by
  unfold prinLetter at h
  split_ifs at h <;> cases h <;> rfl

/-- A prot is written with a permission and a principal that are not reserved (30_encoding.md R55). -/
theorem wellFormed_of_protWord {w : Text} {p : Prot} (h : protWord w = some p) : p.wellFormed = true := by
  unfold protWord at h
  split at h
  case h_1 | h_2 =>
    obtain ⟨perm, hperm, h⟩ := Option.bind_eq_some_iff.1 h
    obtain ⟨prin, hprin, rfl⟩ := Option.map_eq_some_iff.1 h
    simp [Prot.wellFormed, wellFormed_of_permLetter hperm, wellFormed_of_prinLetter hprin]
  case h_3 => cases h

theorem isOperation_of_assembleForm {f : Form} {ws : List Text} {i : AsmInstr} (hf : f.IsSound)
    (h : assembleForm f ws = some i) : IsOperation i.instr := by
  unfold assembleForm at h
  split at h
  case h_1 =>
    obtain ⟨a, -, h⟩ := Option.bind_eq_some_iff.1 h
    obtain ⟨l, hl, rfl⟩ := Option.map_eq_some_iff.1 h
    exact hf l (wellFormed_of_levelWord hl)
  case h_2 =>
    obtain ⟨a, -, rfl⟩ := Option.map_eq_some_iff.1 h
    exact hf
  case h_3 =>
    obtain ⟨a, -, h⟩ := Option.bind_eq_some_iff.1 h
    obtain ⟨p, hp, rfl⟩ := Option.map_eq_some_iff.1 h
    exact hf p (wellFormed_of_protWord hp)
  case h_4 =>
    obtain ⟨a, -, h⟩ := Option.bind_eq_some_iff.1 h
    obtain ⟨b, -, rfl⟩ := Option.map_eq_some_iff.1 h
    exact hf
  case h_5 =>
    cases h
    exact hf
  case h_6 => cases h

theorem isOperation_of_assembleWords {ws : List Text} {i : AsmInstr} (h : assembleWords ws = some i) :
    IsOperation i.instr := by
  cases ws with
  | nil => cases h
  | cons m rest =>
    obtain ⟨f, hf, h⟩ := Option.bind_eq_some_iff.1 h
    exact isOperation_of_assembleForm (isSound_of_formOf hf) h

/-- The word of an operation is decoded to it, so its own status is answered. -/
theorem stepStatus_ne_malformedCommand_of_isOperation {s : State} {i : Instr} (hi : IsOperation i)
    (hcmd : s.cmd = encode i) : stepStatus s ≠ .malformedCommand := by
  obtain ⟨hwf, hop⟩ := hi
  rw [stepStatus_of_decode_eq_ok (i := i) (by rw [hcmd, decode_encode hwf])]
  exact instrStatus_ne_malformedCommand hop hwf s

/-- Settles O53: no mnemonic, and no level or prot that can be written, names a reserved value. -/
theorem assemblerMakesNoMalformedCommand : Obligations.AssemblerMakesNoMalformedCommand := by
  intro line i s hline hcmd
  have hne := stepStatus_ne_malformedCommand_of_isOperation (isOperation_of_assembleWords hline) hcmd
  obtain ⟨v, hstep, -⟩ := step_answersWith s
  exact ⟨v, _, hstep, fun hst => hne (Status.code_injective (a₂ := .malformedCommand) hst)⟩

/-- Settles O54: the texts are written out. -/
theorem pseudoInstructionsAreThePresets : Obligations.PseudoInstructionsAreThePresets := by
  unfold Obligations.PseudoInstructionsAreThePresets
  decide

end Sys2Proof.Machine
end

/-! PROOFS. Programs of the host (30_encoding.md R57, 70_reset_and_hazards.md R113): one equation for each kind of line,
from which a program's two endings are read off. -/
section
namespace Sys2Proof.Machine

/-! ### Request lines -/

/-- A request line whose operands are read: the codec answers, with a result or with a fault. -/
theorem issue_of_ok {p : ProgState} {t : Nat} {q : Request} (h : q.expected.st = 0#2) :
    p.issue t q = .running { p with
      pos := p.pos + 1, temps := Table.write t q.expected.r p.temps,
      codec := { p.codec.present q with response := some q.expected } } := by
  rw [ProgState.issue, serve_eq]
  simp only [Response.result_of_ok h]

theorem issue_of_fault {p : ProgState} {t : Nat} {q : Request} (h : q.expected.st ≠ 0#2) :
    p.issue t q = .ended (.fault q.expected.status) p.temps := by
  rw [ProgState.issue, serve_eq]
  simp only [Response.result_of_fault h]

section
variable {p : ProgState}

/-! ### One equation per line -/

theorem progStep_of_none (h : p.lines[p.pos]? = none) : progStep p = .stuck .noHalt := by
  simp only [progStep, h]

theorem progStep_of_halt (h : p.lines[p.pos]? = some .halt) : progStep p = .ended .ok p.temps := by
  simp only [progStep, h]

theorem progStep_of_label {l : String} (h : p.lines[p.pos]? = some (.label l)) :
    progStep p = .running { p with pos := p.pos + 1 } := by
  simp only [progStep, h]

theorem progStep_of_goto {l : String} (h : p.lines[p.pos]? = some (.goto l)) : progStep p = p.jump l := by
  simp only [progStep, h]

theorem progStep_of_ifGoto {t : Nat} {v w : Word} {l : String} (h : p.lines[p.pos]? = some (.ifGoto t v l))
    (hread : Table.read t p.temps = some w) :
    progStep p = if w = v then p.jump l else .running { p with pos := p.pos + 1 } := by
  simp only [progStep, h, hread]

theorem progStep_of_ifGoto_unwritten {t : Nat} {v : Word} {l : String} (h : p.lines[p.pos]? = some (.ifGoto t v l))
    (hread : Table.read t p.temps = none) : progStep p = .stuck (.unwrittenTemp t) := by
  simp only [progStep, h, hread]

theorem progStep_of_assign {t : Nat} {i : AsmInstr} {q : Request} (h : p.lines[p.pos]? = some (.assign t i))
    (hq : i.toRequest p.temps = .ok q) : progStep p = p.issue t q := by
  simp only [progStep, h, hq]

theorem progStep_of_assign_unwritten {t n : Nat} {i : AsmInstr} (h : p.lines[p.pos]? = some (.assign t i))
    (hq : i.toRequest p.temps = .error n) : progStep p = .stuck (.unwrittenTemp n) := by
  simp only [progStep, h, hq]

end

/-- Settles O55: the line's response is the second reading's. -/
theorem hostProgramStopsAtFirstFault : Obligations.HostProgramStopsAtFirstFault := by
  intro p t i q hline hq
  rw [progStep_of_assign hline hq]
  refine ⟨fun hst => ⟨_, issue_of_ok hst, rfl, rfl, Table.read_write_same _ _ _, fun n hn => ?_⟩, issue_of_fault⟩
  exact Table.read_write_other hn _ _

/-! ### Control lines -/

/-- A label's place is the first line that is it. -/
theorem labelPos_eq (name : String) (xs : List Line) (k : Nat) :
    labelPos name xs k = (xs.findIdx? (· = .label name)).map (· + k) := by
  induction xs generalizing k with
  | nil => rfl
  | cons x xs ih =>
    rw [labelPos, List.findIdx?_cons, ih]
    by_cases hx : x = .label name
    · simp [hx]
    · simp [hx, Function.comp_def, Nat.add_assoc, Nat.add_comm 1]

/-- A label at one place is found there. -/
theorem jump_of_label {p : ProgState} {l : String} {k : Nat} (h : ∀ j, p.lines[j]? = some (.label l) ↔ j = k) :
    p.jump l = .running { p with pos := k } := by
  have hpos : p.lines.findIdx? (· = .label l) = some k := by
    obtain ⟨hk, hline⟩ := List.getElem?_eq_some_iff.1 ((h k).2 rfl)
    refine List.findIdx?_eq_some_iff_getElem.2 ⟨hk, by simpa using hline, fun j hj => ?_⟩
    have hne : p.lines[j]? ≠ some (.label l) := fun hj' => absurd ((h j).1 hj') (by omega)
    simpa [List.getElem?_eq_getElem (show j < p.lines.length by omega)] using hne
  rw [ProgState.jump, labelPos_eq, hpos]
  rfl

/-- Settles O56: a label that stands at one place is found there. -/
theorem hostControlLinesMoveTheProgram : Obligations.HostControlLinesMoveTheProgram := by
  refine ⟨fun p l => progStep_of_label, fun p l k hline hlabel => ?_, fun p t v l k hline hlabel hread => ?_,
    fun p t v l w hline hread hne => ?_⟩
  · rw [progStep_of_goto hline, jump_of_label hlabel]
  · rw [progStep_of_ifGoto hline hread, if_pos rfl, jump_of_label hlabel]
  · rw [progStep_of_ifGoto hline hread, if_neg hne]

/-! ### How a program ends -/

/-- A jump goes on, or its label is missing. -/
theorem jump_cases (p : ProgState) (l : String) :
    (∃ p', p.jump l = .running p') ∨ p.jump l = .stuck (.unknownLabel l) := by
  unfold ProgState.jump
  cases labelPos l p.lines 0 with
  | some k => exact .inl ⟨_, rfl⟩
  | none => exact .inr rfl

/-- The line that ends a program as `o` does: `halt`, or a request whose ST is not 0. -/
def EndsAt (p : ProgState) (o : ProgOutcome) : Prop :=
  (p.lines[p.pos]? = some .halt ∧ o = .ok) ∨
  (∃ t i q, p.lines[p.pos]? = some (.assign t i) ∧ i.toRequest p.temps = .ok q ∧
    q.expected.st ≠ 0#2 ∧ o = .fault q.expected.status)

/-- All that one line can come to. -/
theorem progStep_cases (p : ProgState) :
    (∃ p', progStep p = .running p') ∨
    (∃ o, progStep p = .ended o p.temps ∧ EndsAt p o) ∨
    (∃ r, progStep p = .stuck r ∧ r ≠ .noResponse) := by
  have of_jump {l} (h : progStep p = p.jump l) :
      (∃ p', progStep p = .running p') ∨ (∃ r, progStep p = .stuck r ∧ r ≠ .noResponse) := by
    obtain ⟨p', hj⟩ | hj := jump_cases p l
    · exact .inl ⟨p', h.trans hj⟩
    · exact .inr ⟨_, h.trans hj, by simp⟩
  cases hline : p.lines[p.pos]? with
  | none => exact .inr (.inr ⟨_, progStep_of_none hline, by simp⟩)
  | some line =>
    cases line with
    | halt => exact .inr (.inl ⟨_, progStep_of_halt hline, .inl ⟨hline, rfl⟩⟩)
    | label l => exact .inl ⟨_, progStep_of_label hline⟩
    | goto l => exact (of_jump (progStep_of_goto hline)).imp_right .inr
    | ifGoto t v l =>
      cases hread : Table.read t p.temps with
      | none => exact .inr (.inr ⟨_, progStep_of_ifGoto_unwritten hline hread, by simp⟩)
      | some w =>
        have hstep := progStep_of_ifGoto hline hread
        split_ifs at hstep
        · exact (of_jump hstep).imp_right .inr
        · exact .inl ⟨_, hstep⟩
    | assign t i =>
      cases hq : i.toRequest p.temps with
      | error n => exact .inr (.inr ⟨_, progStep_of_assign_unwritten hline hq, by simp⟩)
      | ok q =>
        have hstep := progStep_of_assign hline hq
        by_cases hst : q.expected.st = 0#2
        · exact .inl ⟨_, hstep.trans (issue_of_ok hst)⟩
        · exact .inr (.inl ⟨_, hstep.trans (issue_of_fault hst), .inr ⟨t, i, q, hline, hq, hst, rfl⟩⟩)

/-- Settles O57: of all that a line can come to, `halt` and a faulted request end the program. -/
theorem hostProgramEndsInTwoWays : Obligations.HostProgramEndsInTwoWays := by
  refine ⟨fun p => progStep_of_halt, fun p o ts h => ?_, fun p h => ?_⟩
  · obtain ⟨p', hstep⟩ | ⟨o', hstep, hends⟩ | ⟨r, hstep, -⟩ := progStep_cases p <;> cases hstep.symm.trans h
    exact ⟨rfl, hends⟩
  · obtain ⟨p', hstep⟩ | ⟨o', hstep, -⟩ | ⟨r, hstep, hr⟩ := progStep_cases p <;> cases hstep.symm.trans h
    exact hr rfl

end Sys2Proof.Machine
end

/-! PROOFS. Stored entries (20_memory.md R33): the bytes written are the bytes read, and the number of all eight bytes
of an entry is the entry. -/
section
namespace Sys2Proof.Machine

/-! ### Bytes in page-table memory -/

/-- The bytes stored from an address read back from there. -/
theorem PageMemory.readBytes_writeBytes (addr : Nat) (vs : List (BitVec 8)) (m : PageMemory) :
    PageMemory.readBytes addr vs.length (PageMemory.writeBytes addr vs m) = some vs := by
  induction vs generalizing addr m with
  | nil => rfl
  | cons v vs ih =>
    have hfirst : Table.read addr (PageMemory.writeBytes addr (v :: vs) m) = some v :=
      PageMemory.read_writeBytes_inside (v :: vs) addr 0 m (by simp)
    rw [List.length_cons, PageMemory.readBytes, hfirst, Option.bind_some, PageMemory.writeBytes, ih, Option.map_some]

/-! ### An entry and its bytes -/

/-- The number of bytes in two parts: the second part stands above the first. -/
theorem bytesValue_append (xs ys : List (BitVec 8)) :
    bytesValue (xs ++ ys) = bytesValue xs + 256 ^ xs.length * bytesValue ys := by
  induction xs with
  | nil => simp [bytesValue]
  | cons x xs ih =>
    rw [List.cons_append, bytesValue, bytesValue, ih, List.length_cons, pow_succ]
    ring

/-- The number of the low `n` bytes of an entry is what of it stands below byte `n`. -/
theorem bytesValue_low (e : Word) (n : Nat) :
    bytesValue ((List.range n).map fun k => e.extractLsb' (8 * k) 8) = e.toNat % 256 ^ n := by
  induction n with
  | zero => simp [bytesValue, Nat.mod_one]
  | succ n ih =>
    have hbyte : (e.extractLsb' (8 * n) 8).toNat = e.toNat / 256 ^ n % 256 := by
      rw [extractLsb'_toNat, pow_mul]
      norm_num
    rw [List.range_succ, List.map_append, bytesValue_append, ih, pow_succ, Nat.mod_mul]
    simp [bytesValue, hbyte]

/-- The entry whose bytes are those of an entry, in one order, is that entry. -/
theorem entryOfBytes_entryBytes (o : ByteOrder) (e : Word) : entryOfBytes o (entryBytes o e) = e := by
  have hlow : BitVec.ofNat 64 (bytesValue ((List.range 8).map fun k => e.extractLsb' (8 * k) 8)) = e := by
    rw [bytesValue_low, show 256 ^ 8 = 2 ^ 64 by norm_num, Nat.mod_eq_of_lt e.isLt, BitVec.ofNat_toNat,
      BitVec.setWidth_eq]
  cases o with
  | little => exact hlow
  | big => rwa [entryBytes, entryOfBytes, List.reverse_reverse]

theorem entryBytes_little_getElem (e : Word) {k : Nat} (hk : k < (entryBytes .little e).length) :
    (entryBytes .little e)[k] = e.extractLsb' (8 * k) 8 := by
  simp [entryBytes]

theorem PageMemory.loadEntry_storeEntry (o : ByteOrder) (e : Word) (addr : Nat) (m : PageMemory) :
    PageMemory.loadEntry o addr (PageMemory.storeEntry o addr e m) = some e := by
  have hread := PageMemory.readBytes_writeBytes addr (entryBytes o e) m
  rw [entryBytes_length] at hread
  rw [PageMemory.loadEntry, PageMemory.storeEntry, hread, Option.map_some, entryOfBytes_entryBytes]

/-- A byte outside the eight of a stored entry is unchanged. -/
theorem PageMemory.read_storeEntry_outside (o : ByteOrder) (e : Word) {addr x : Nat} (m : PageMemory)
    (h : x < addr ∨ addr + 8 ≤ x) : Table.read x (PageMemory.storeEntry o addr e m) = Table.read x m :=
  PageMemory.read_writeBytes_outside _ _ (by rwa [entryBytes_length])

/-- Settles O58: a store writes the entry's eight bytes in the order given. -/
theorem storedEntryReadsBack : Obligations.StoredEntryReadsBack := by
  refine ⟨fun e k addr m hk => ?_, PageMemory.loadEntry_storeEntry,
    fun o e addr m x => PageMemory.read_storeEntry_outside o e m⟩
  have hbyte := PageMemory.read_writeBytes_inside (entryBytes .little e) addr k m (by rwa [entryBytes_length])
  rw [PageMemory.storeEntry, hbyte, entryBytes_little_getElem]

end Sys2Proof.Machine
end

/-! PROOFS. The host's contract (42_translation_control.md R88 to R90, 70_reset_and_hazards.md R107, R109, R110): what
an install answers, what a run of actions leaves of page-table memory, and which roots it has installed. -/
section
namespace Sys2Proof.Machine

/-! ### Installing a root -/

/-- A request leaves the second reading's response on the codec's ports. -/
theorem Manager.ask_eq (q : Request) (m : Manager) :
    m.ask q = .ok ({ m with codec := { m.codec.present q with response := some q.expected } }, q.expected) := by
  rw [Manager.ask, serve_eq]

section
variable {p : HostParams} {root : Word} {m : Manager}

/-- An install that the codec and the tables allow sets the root to SATP.MAKE's result. -/
theorem Manager.installRoot_of_ok (hst : (requestOf .satpMake root 0#64).expected.st = 0#2)
    (hbuilt : PageMemory.tablesBuilt p.pteByteOrder LEVELS root m.pageTables = true) :
    ∃ s, m.installRoot p root =
      .ok (Manager.setRoot p root (requestOf .satpMake root 0#64).expected.r { m with codec := s }) := by
  rw [Manager.installRoot, Manager.ask_eq]
  simp only [Response.result_of_ok hst, hbuilt, if_true]
  exact ⟨_, rfl⟩

theorem Manager.installRoot_of_not_built (hst : (requestOf .satpMake root 0#64).expected.st = 0#2)
    (hbuilt : PageMemory.tablesBuilt p.pteByteOrder LEVELS root m.pageTables = false) :
    m.installRoot p root = .error .tablesNotBuilt := by
  rw [Manager.installRoot, Manager.ask_eq]
  simp [Response.result_of_ok hst, hbuilt]

theorem Manager.installRoot_of_fault (hst : (requestOf .satpMake root 0#64).expected.st ≠ 0#2) :
    m.installRoot p root = .error (.rootRefused (requestOf .satpMake root 0#64).expected.status) := by
  rw [Manager.installRoot, Manager.ask_eq]
  simp only [Response.result_of_fault hst]

end

/-- A root switch that flushes takes effect at once (42_translation_control.md R90). -/
theorem Manager.consults_setRoot_of_flushes {p : HostParams} (h : p.rootSwitchFlushesTlb = true) (root v : Word)
    (m : Manager) : (m.setRoot p root v).consults p = v := by
  simp [Manager.setRoot, h]

/-- After as many translations as the parameter of U5 says, the value in SATP is consulted. -/
theorem Manager.consults_of_le {p : HostParams} {m : Manager} {n : Nat} (hn : p.rootTakesEffectAfter = some n)
    (hle : n ≤ m.sinceInstall) : m.consults p = m.satp := by
  simp only [Manager.consults, hn, if_pos hle]

/-- Translations go through, leave SATP and are counted. -/
theorem Manager.actAll_replicate_translate (p : HostParams) (n : Nat) (m : Manager) :
    ∃ t, Manager.actAll p (List.replicate n .translate) m = .ok t ∧ t.satp = m.satp ∧
      t.sinceInstall = m.sinceInstall + n := by
  induction n generalizing m with
  | zero => exact ⟨m, rfl, rfl, rfl⟩
  | succ n ih =>
    obtain ⟨t, hrun, hsatp, hcount⟩ := ih (m.translate p)
    refine ⟨t, hrun, hsatp, hcount.trans ?_⟩
    rw [Manager.translate_sinceInstall]
    omega

/-- What an install that goes through leaves. -/
theorem Manager.act_installRoot_ok {p : HostParams} {root : Word} {m : Manager}
    (hst : (requestOf .satpMake root 0#64).expected.st = 0#2)
    (hbuilt : PageMemory.tablesBuilt p.pteByteOrder LEVELS root m.pageTables = true) :
    ∃ m', m.act p (.installRoot root) = .ok m' ∧ m'.satp = (requestOf .satpMake root 0#64).expected.r ∧
      m'.pageTables = m.pageTables ∧ m'.userAccess = m.userAccess ∧ m'.mayBeStale = !p.rootSwitchFlushesTlb ∧
      (p.rootSwitchFlushesTlb = true → m'.consults p = (requestOf .satpMake root 0#64).expected.r) ∧
      (∀ n, p.rootTakesEffectAfter = some n → ∃ t, Manager.actAll p (List.replicate n .translate) m' = .ok t ∧
        t.satp = (requestOf .satpMake root 0#64).expected.r ∧
        t.consults p = (requestOf .satpMake root 0#64).expected.r) := by
  obtain ⟨s, hinstall⟩ := Manager.installRoot_of_ok hst hbuilt
  refine ⟨_, hinstall, by simp, by simp, by simp, by simp, fun h => Manager.consults_setRoot_of_flushes h _ _ _,
    fun n hn => ?_⟩
  obtain ⟨t, hrun, hsatp, hcount⟩ := Manager.actAll_replicate_translate p n
    (Manager.setRoot p root (requestOf .satpMake root 0#64).expected.r { m with codec := s })
  rw [Manager.setRoot_satp] at hsatp
  rw [Manager.setRoot_sinceInstall] at hcount
  exact ⟨t, hrun, hsatp, (Manager.consults_of_le hn (by omega)).trans hsatp⟩

/-! ### Runs of actions -/

/-- A run that goes through is one action and then the rest. -/
theorem Manager.actAll_cons_ok {p : HostParams} {x : Action} {xs : List Action} {m m' : Manager}
    (h : Manager.actAll p (x :: xs) m = .ok m') :
    ∃ m₁, m.act p x = .ok m₁ ∧ Manager.actAll p xs m₁ = .ok m' := by
  rw [Manager.actAll] at h
  split at h
  next m₁ hact => exact ⟨m₁, hact, h⟩
  next => cases h

/-- The address lies outside the eight bytes of every entry the actions store. -/
def Untouched (a : Nat) (xs : List Action) : Prop :=
  ∀ addr e, Action.storeEntry addr e ∈ xs → a < addr ∨ addr + 8 ≤ a

/-- A byte that no action stores reads as before the run. -/
theorem Manager.read_of_actAll {p : HostParams} {xs : List Action} {m m' : Manager} {a : Nat} (ha : Untouched a xs)
    (h : Manager.actAll p xs m = .ok m') : Table.read a m'.pageTables = Table.read a m.pageTables := by
  induction xs generalizing m with
  | nil =>
    cases h
    rfl
  | cons x xs ih =>
    obtain ⟨m₁, hact, hrest⟩ := Manager.actAll_cons_ok h
    rw [ih (fun addr e hmem => ha addr e (List.mem_cons_of_mem _ hmem)) hrest]
    obtain ⟨hmem, -⟩ | ⟨addr, e, rfl, hmem, -⟩ | ⟨root, -, -, hmem, -⟩ := Manager.act_ok hact <;> rw [hmem]
    exact PageMemory.read_storeEntry_outside _ _ _ (ha addr e List.mem_cons_self)

/-- The roots installed after a run were installed before it or by one of its actions. -/
theorem Manager.mem_installedRoots_of_actAll {p : HostParams} {xs : List Action} {m m' : Manager} {root : Word}
    (h : Manager.actAll p xs m = .ok m') (hroot : root ∈ m'.installedRoots) :
    root ∈ m.installedRoots ∨ Action.installRoot root ∈ xs := by
  induction xs generalizing m with
  | nil =>
    cases h
    exact .inl hroot
  | cons x xs ih =>
    obtain ⟨m₁, hact, hrest⟩ := Manager.actAll_cons_ok h
    obtain hm₁ | hxs := ih hrest
    · obtain ⟨-, hroots⟩ | ⟨_, _, -, -, hroots⟩ | ⟨_, rfl, -, -, hroots⟩ := Manager.act_ok hact <;> rw [hroots] at hm₁
      · exact .inl hm₁
      · exact .inl hm₁
      · obtain rfl | hm := List.mem_cons.1 hm₁
        · exact .inr List.mem_cons_self
        · exact .inl hm
    · exact .inr (List.mem_cons_of_mem _ hxs)

/-- What loads has a first byte. -/
theorem PageMemory.exists_read_of_loadEntry {o : ByteOrder} {addr : Nat} {m : PageMemory} {e : Word}
    (h : PageMemory.loadEntry o addr m = some e) : ∃ v, Table.read addr m = some v := by
  cases hread : Table.read addr m with
  | none => simp [PageMemory.loadEntry, PageMemory.readBytes, hread] at h
  | some v => exact ⟨v, rfl⟩

/-- In memory that was empty before the run, a table that exists has bytes of an entry that the run stored. -/
theorem Manager.exists_storeEntry_of_tablesBuilt {p : HostParams} {xs : List Action} {m m₁ : Manager} {o : ByteOrder}
    {n : Nat} {root : Word} (hempty : m.pageTables = []) (h : Manager.actAll p xs m = .ok m₁)
    (hbuilt : PageMemory.tablesBuilt o (n + 1) root m₁.pageTables = true) :
    ∃ addr e, Action.storeEntry addr e ∈ xs ∧ root.toNat < addr + 8 ∧ addr < root.toNat + 4096 := by
  obtain ⟨k, e, hk, hload⟩ := PageMemory.exists_loadEntry_of_tablesBuilt hbuilt
  obtain ⟨v, hread⟩ := PageMemory.exists_read_of_loadEntry hload
  by_contra hnone
  have huntouched : Untouched (root.toNat + 8 * k) xs := by
    intro addr e hmem
    by_contra hin
    exact hnone ⟨addr, e, hmem, by omega, by omega⟩
  rw [Manager.read_of_actAll huntouched h, hempty] at hread
  cases hread

/-! ### User page access -/

theorem anySet_PTE_U (leaf : Word) : anySet leaf PTE_U = leaf.getLsbD 4 := anySet_twoPow leaf (k := 4) (by decide)

theorem Manager.act_accessPage_of_enabled {p : HostParams} {m : Manager} (h : m.userAccess = true) (leaf : Word) :
    m.act p (.accessPage leaf) = .ok m := by
  simp [Manager.act, Manager.mayAccess, h]

theorem Manager.act_accessPage_of_disabled {p : HostParams} {m : Manager} (h : m.userAccess = false) (leaf : Word) :
    m.act p (.accessPage leaf) = if leaf.getLsbD 4 then .error .userPageRefused else .ok m := by
  rw [Manager.act, Manager.mayAccess, h, anySet_PTE_U]
  cases leaf.getLsbD 4 <;> rfl

/-- Settles O59: the codec's answer and the tables decide an install, whose tables only a store can have built. -/
theorem installWritesSatpMakeValue : Obligations.InstallWritesSatpMakeValue := by
  refine ⟨fun p m root => ⟨Manager.act_installRoot_ok, Manager.installRoot_of_not_built, Manager.installRoot_of_fault⟩,
    fun p before root after m m' hempty h => ?_,
    fun p m => ⟨m.flush, rfl, rfl, Manager.consults_flush p m, rfl⟩,
    fun p m leaf => ⟨⟨_, rfl, Manager.act_accessPage_of_enabled rfl leaf, rfl⟩,
      ⟨_, rfl, rfl, Manager.act_accessPage_of_disabled rfl leaf⟩⟩⟩
  obtain ⟨m₁, hbefore, hrest⟩ := Manager.actAll_append h
  obtain ⟨m₂, hinstall, -⟩ := Manager.actAll_cons_ok hrest
  exact Manager.exists_storeEntry_of_tablesBuilt hempty hbefore (Manager.installRoot_ok hinstall).1

/-- A translation that relies on a root finds it installed (log entry 13). -/
theorem Manager.mem_installedRoots_of_translateUsing {p : HostParams} {m m' : Manager} {root : Word}
    (h : m.act p (.translateUsing root) = .ok m') : root ∈ m.installedRoots := by
  by_contra hroot
  simp [Manager.act, hroot] at h

/-- Settles O60: the root is installed when the translation relies on it, so an action before it installed it. -/
theorem installComesBeforeTranslation : Obligations.InstallComesBeforeTranslation := by
  intro p before root after m m' hnone h
  obtain ⟨m₁, hbefore, hrest⟩ := Manager.actAll_append h
  obtain ⟨m₂, htranslate, -⟩ := Manager.actAll_cons_ok hrest
  have hroot := Manager.mem_installedRoots_of_translateUsing htranslate
  refine (Manager.mem_installedRoots_of_actAll hbefore hroot).resolve_left ?_
  rw [hnone]
  exact List.not_mem_nil

end Sys2Proof.Machine
end
